-- ==== Sys2Proof/Word.lean ====
section
/-! DEFINITION. The word types of the engine (spec/00_scope.md R6, R7). All values are unsigned. -/

namespace Sys2Proof

/-- One byte of the frame byte memory FB (R12). -/
abbrev Byte := BitVec 8

/-- One 16-bit lane of FB, or one sample of ACC: `LANE_BITS` is 16 (R6, R9, R14). -/
abbrev Sample := BitVec 16

/-- A 32-bit register, or the `addr`, `len` or `arg` field of a descriptor (R16, R51). -/
abbrev Word := BitVec 32

/-- A whole 128-bit command descriptor `d[127:0]` (R50, R51). -/
abbrev DescriptorBits := BitVec 128

end Sys2Proof
end

