-- ==== Sys2Proof/Syntax.lean ====
section
/-! DEFINITION. The commands of command set v1, one constructor per row of spec/opcode_table.json
(spec/30_encoding.md R53, R60), and the fields of a raw descriptor (R51). -/

namespace Sys2Proof

/-- The two pixel formats (R2, R70). -/
inductive Format where
  | raw10
  | raw12
deriving DecidableEq, Repr

/-- The nine commands with the operands of R60's written form. A format operand is one of the two legal
ones, `addr` and `len` are 32-bit fields, the divisor is a 16-bit field (R51, R52), so every value of this type
is a legal command. -/
inductive Instr where
  | unpack (f : Format) (addr len : Word)
  | mask   (f : Format) (addr len : Word)
  | shl    (f : Format) (addr len : Word)
  | pad    (f : Format) (addr len : Word)
  | ldacc  (f : Format) (addr len : Word)
  | ldaccu (f : Format) (addr len : Word)
  | addacc (addr len : Word)
  | divacc (k : Sample)
  | stacc  (addr : Word)
deriving DecidableEq, Repr

/-- The six fields of a descriptor, legal or not (R51). -/
structure Descriptor where
  op   : BitVec 4
  fmt  : BitVec 4
  rsv  : BitVec 24
  addr : Word
  len  : Word
  arg  : Word
deriving DecidableEq, Repr

end Sys2Proof
end

