-- ==== Sys2Proof/WellFormed.lean ====
section
/-! DEFINITION. When a descriptor is legal: the checks of spec/30_encoding.md R54, one name each. The operands of
`Instr` are legal by their types, so well-formedness is a question about the raw descriptor only. -/

namespace Sys2Proof.Descriptor

/-- `op` is in `0x1 .. 0x9`. -/
def opDefined (x : Descriptor) : Bool := decide (1 ≤ x.op.toNat ∧ x.op.toNat ≤ 9)

/-- `rsv = 0`. -/
def rsvZero (x : Descriptor) : Bool := decide (x.rsv = 0)

/-- If `op` is in `0x1 .. 0x6` then `fmt` is `0xA` or `0xC`, else `fmt = 0`. -/
def fmtFits (x : Descriptor) : Bool :=
  if 1 ≤ x.op.toNat ∧ x.op.toNat ≤ 6 then decide (x.fmt = 0xA ∨ x.fmt = 0xC) else decide (x.fmt = 0)

/-- If `op = 0x8` then `addr = 0`. -/
def addrFits (x : Descriptor) : Bool := if x.op = 8 then decide (x.addr = 0) else true

/-- If `op = 0x8` or `op = 0x9` then `len = 0`. -/
def lenFits (x : Descriptor) : Bool := if x.op = 8 ∨ x.op = 9 then decide (x.len = 0) else true

/-- If `op = 0x8` then `arg[31:16] = 0`, else `arg = 0`. -/
def argFits (x : Descriptor) : Bool :=
  if x.op = 8 then decide (x.arg.toNat < 2 ^ 16) else decide (x.arg = 0)

/-- A descriptor is legal exactly when all of these hold (R54). -/
def wellFormed (x : Descriptor) : Bool :=
  x.opDefined && x.rsvZero && x.fmtFits && x.addrFits && x.lenFits && x.argFits

end Sys2Proof.Descriptor
end

