-- ==== Sys2Proof/Decode.lean ====
section
/-! DEFINITION. The decoder (spec/30_encoding.md R51, R54, R55, R57), total on any bits and any bytes and rejecting by
name, and the encoder written from the same tables (R51, R53, R60). -/

namespace Sys2Proof

/-- Why a descriptor is no command: the clauses of R57. Every one of them is the engine's `Illegal`. -/
inductive Reject where
  /-- `op` is 0 or in `0xA .. 0xF`. -/
  | reservedOpcode
  /-- `rsv` is nonzero. -/
  | reservedBitsSet
  /-- `fmt` is not `0xA` or `0xC` on a command that takes a format. -/
  | reservedFormat
  /-- `fmt` is nonzero on ADDACC, DIVACC or STACC. -/
  | formatNotZero
  /-- `addr` is nonzero on DIVACC. -/
  | addrNotZero
  /-- `len` is nonzero on DIVACC or STACC. -/
  | lenNotZero
  /-- `arg` is nonzero on a command other than DIVACC, or `arg[31:16]` is nonzero on DIVACC. -/
  | argNotZero
  /-- Not sixteen bytes: no descriptor at all (R50: there is one length of command). -/
  | notSixteenBytes
deriving DecidableEq, Repr

/-- `fmt` holds the sample bit-width as a 4-bit number (R55). -/
def Format.code : Format → BitVec 4
  | .raw10 => 0xA
  | .raw12 => 0xC

/-- The format a code selects; every other value is reserved (R55). -/
def Format.ofCode (c : BitVec 4) : Option Format :=
  if c = 0xA then some .raw10 else if c = 0xC then some .raw12 else none

/-- The fields of `d[127:0]` (R51). -/
def Descriptor.ofBits (d : DescriptorBits) : Descriptor where
  op   := d.extractLsb' 0 4
  fmt  := d.extractLsb' 4 4
  rsv  := d.extractLsb' 8 24
  addr := d.extractLsb' 32 32
  len  := d.extractLsb' 64 32
  arg  := d.extractLsb' 96 32

/-- The 128 bits of the fields, `arg` on top and `op` at the bottom (R51). -/
def Descriptor.toBits (x : Descriptor) : DescriptorBits :=
  x.arg ++ (x.len ++ (x.addr ++ (x.rsv ++ (x.fmt ++ x.op))))

/-- A command with operands format, address, length: `arg` must be 0 (R53, R54). -/
def Descriptor.withFormat (x : Descriptor) (mk : Format → Word → Word → Instr) : Except Reject Instr :=
  match Format.ofCode x.fmt with
  | none => .error .reservedFormat
  | some f => if x.arg = 0 then .ok (mk f x.addr x.len) else .error .argNotZero

/-- ADDACC: `fmt = 0`, `arg = 0` (R54). -/
def Descriptor.decodeAddacc (x : Descriptor) : Except Reject Instr :=
  if x.fmt ≠ 0 then .error .formatNotZero
  else if x.arg ≠ 0 then .error .argNotZero
  else .ok (.addacc x.addr x.len)

/-- DIVACC: `fmt = 0`, `addr = 0`, `len = 0`, `arg[31:16] = 0`; the divisor is `arg[15:0]` (R52, R54). -/
def Descriptor.decodeDivacc (x : Descriptor) : Except Reject Instr :=
  if x.fmt ≠ 0 then .error .formatNotZero
  else if x.addr ≠ 0 then .error .addrNotZero
  else if x.len ≠ 0 then .error .lenNotZero
  else if x.arg.extractLsb' 16 16 ≠ 0 then .error .argNotZero
  else .ok (.divacc (x.arg.extractLsb' 0 16))

/-- STACC: `fmt = 0`, `len = 0`, `arg = 0` (R54). -/
def Descriptor.decodeStacc (x : Descriptor) : Except Reject Instr :=
  if x.fmt ≠ 0 then .error .formatNotZero
  else if x.len ≠ 0 then .error .lenNotZero
  else if x.arg ≠ 0 then .error .argNotZero
  else .ok (.stacc x.addr)

/-- The opcode map of R53, over the fields. -/
def Descriptor.decode (x : Descriptor) : Except Reject Instr :=
  if x.rsv ≠ 0 then .error .reservedBitsSet
  else if x.op = 0x1 then x.withFormat .unpack
  else if x.op = 0x2 then x.withFormat .mask
  else if x.op = 0x3 then x.withFormat .shl
  else if x.op = 0x4 then x.withFormat .pad
  else if x.op = 0x5 then x.withFormat .ldacc
  else if x.op = 0x6 then x.withFormat .ldaccu
  else if x.op = 0x7 then x.decodeAddacc
  else if x.op = 0x8 then x.decodeDivacc
  else if x.op = 0x9 then x.decodeStacc
  else .error .reservedOpcode

/-- Decoding of a whole descriptor (R54). -/
def decode (d : DescriptorBits) : Except Reject Instr := (Descriptor.ofBits d).decode

/-- The number whose little-endian bytes are `bs`. -/
def natOfBytes : List Byte → Nat
  | [] => 0
  | b :: bs => b.toNat + 256 * natOfBytes bs

/-- The `n` little-endian bytes of a number. -/
def bytesOfNat : Nat → Nat → List Byte
  | 0, _ => []
  | n + 1, v => BitVec.ofNat 8 v :: bytesOfNat n (v / 256)

/-- As 16 bytes the descriptor is little-endian: byte `j` is `d[8j+7 : 8j]` (R51). -/
def decodeBytes (bs : List Byte) : Except Reject Instr :=
  if bs.length = 16 then decode (BitVec.ofNat 128 (natOfBytes bs)) else .error .notSixteenBytes

/-- The descriptor fields of a command: the opcode of R53, the fields of R60, everything else 0. -/
def Instr.descriptor : Instr → Descriptor
  | .unpack f addr len => { op := 1, fmt := f.code, rsv := 0, addr := addr, len := len, arg := 0 }
  | .mask f addr len   => { op := 2, fmt := f.code, rsv := 0, addr := addr, len := len, arg := 0 }
  | .shl f addr len    => { op := 3, fmt := f.code, rsv := 0, addr := addr, len := len, arg := 0 }
  | .pad f addr len    => { op := 4, fmt := f.code, rsv := 0, addr := addr, len := len, arg := 0 }
  | .ldacc f addr len  => { op := 5, fmt := f.code, rsv := 0, addr := addr, len := len, arg := 0 }
  | .ldaccu f addr len => { op := 6, fmt := f.code, rsv := 0, addr := addr, len := len, arg := 0 }
  | .addacc addr len   => { op := 7, fmt := 0, rsv := 0, addr := addr, len := len, arg := 0 }
  | .divacc k          => { op := 8, fmt := 0, rsv := 0, addr := 0, len := 0, arg := k.setWidth 32 }
  | .stacc addr        => { op := 9, fmt := 0, rsv := 0, addr := addr, len := 0, arg := 0 }

/-- The 128-bit descriptor of a command. -/
def encode (i : Instr) : DescriptorBits := i.descriptor.toBits

/-- The descriptor's 16 bytes, in the order the hardware stores them (R51). -/
def encodeBytes (i : Instr) : List Byte := bytesOfNat 16 (encode i).toNat

/-- One row of spec/opcode_table.json as R61 says to read it: `match`, `mask`, and whether the row's `fmt` field
lists the two legal formats. -/
structure OpcodeRow where
  mnemonic   : String
  matchBits  : DescriptorBits
  maskBits   : DescriptorBits
  takesFmt   : Bool
deriving DecidableEq, Repr

/-- The nine rows of spec/opcode_table.json. -/
def opcodeTable : List OpcodeRow :=
  [ ⟨"UNPACK", 0x1, 0xFFFFFFFF0000000000000000FFFFFF0F, true⟩,
    ⟨"MASK",   0x2, 0xFFFFFFFF0000000000000000FFFFFF0F, true⟩,
    ⟨"SHL",    0x3, 0xFFFFFFFF0000000000000000FFFFFF0F, true⟩,
    ⟨"PAD",    0x4, 0xFFFFFFFF0000000000000000FFFFFF0F, true⟩,
    ⟨"LDACC",  0x5, 0xFFFFFFFF0000000000000000FFFFFF0F, true⟩,
    ⟨"LDACCU", 0x6, 0xFFFFFFFF0000000000000000FFFFFF0F, true⟩,
    ⟨"ADDACC", 0x7, 0xFFFFFFFF0000000000000000FFFFFFFF, false⟩,
    ⟨"DIVACC", 0x8, 0xFFFF0000FFFFFFFFFFFFFFFFFFFFFFFF, false⟩,
    ⟨"STACC",  0x9, 0xFFFFFFFFFFFFFFFF00000000FFFFFFFF, false⟩ ]

/-- `d` selects the row (R61). -/
def OpcodeRow.selects (r : OpcodeRow) (d : DescriptorBits) : Bool :=
  (d &&& r.maskBits == r.matchBits) &&
    (!r.takesFmt || d.extractLsb' 4 4 == 0xA || d.extractLsb' 4 4 == 0xC)

/-- The name of a command in R53's table. -/
def Instr.mnemonic : Instr → String
  | .unpack _ _ _ => "UNPACK"
  | .mask _ _ _   => "MASK"
  | .shl _ _ _    => "SHL"
  | .pad _ _ _    => "PAD"
  | .ldacc _ _ _  => "LDACC"
  | .ldaccu _ _ _ => "LDACCU"
  | .addacc _ _   => "ADDACC"
  | .divacc _     => "DIVACC"
  | .stacc _      => "STACC"

/-- The instruction the decoder reads from a table row's word: the bits above `nbits` are 0 and the word is laid
out as the descriptor's 16 little-endian bytes (R51). -/
def decodeTableWord (nbits w : Nat) : Option Instr :=
  match decodeBytes (bytesOfNat 16 (w % 2 ^ nbits)) with
  | .ok i => some i
  | .error _ => none

end Sys2Proof
end

