-- ==== Sys2Proof/Config.lean ====
section
/-! DEFINITION. What an instance fixes (spec/00_scope.md R6) and the values the spec leaves free (R13, R14, R151). -/

namespace Sys2Proof

/-- The lane-group size `G`: 16 or 32 bytes, no other value is legal (R6, R104). -/
inductive GroupSize where
  | g16
  | g32
deriving DecidableEq, Repr

/-- The implementation parameters of one instance (R6). -/
structure Config where
  group    : GroupSize
  fbBytes  : Nat
  accWords : Nat
deriving DecidableEq, Repr

/-- The legal values of the parameters in R6's table (`G` is legal by its type). -/
abbrev Config.Legal (c : Config) : Prop :=
  0 < c.fbBytes ∧ c.fbBytes < 2 ^ 32 ∧ 0 < c.accWords ∧ c.accWords ≤ 2 ^ 31

/-- The instance `State.reset` stands for: `G = 16` is this hardware's (R6, R103); the two OPEN sizes are
those of the spec's own test vectors (95_test_vectors.md D9, Part 3). DESIGN CHOICE, log entry 1. -/
def Config.reference : Config := { group := .g16, fbBytes := 256, accWords := 64 }

/-- What an FB byte that nothing has written since the last reset reads as: a free draw, one per reset (first
argument) and per byte address (second), under no law (R13, R151). Free value, log entry 3. -/
opaque Config.freeFbByte : Nat → Nat → Byte

/-- What an ACC sample that nothing has written since the last reset holds: a free draw, one per reset and
per index (R14, R150). Free value, log entry 4. -/
opaque Config.freeAccSample : Nat → Nat → Sample

end Sys2Proof
end

