-- ==== Sys2Proof/Machine/State.lean ====
section
/-! DEFINITION. The whole state of the engine (spec/10_state.md R22), the host's moves (spec/70_reset_and_hazards.md
R164), the reasons a step can stop, and the state after reset (R150). Plain data throughout. -/

namespace Sys2Proof.Machine

/-- A sparse memory: (address, content) pairs at strictly rising addresses. It lists exactly what has been written
since the last reset (R165's `Written`); what an unlisted address holds is unspecified (R13, R14). -/
abbrev Memory (α : Type) := List (Nat × α)

/-- The eight fault causes (60_exceptions.md R131). -/
inductive FaultCause where
  | illegal
  | misaligned
  | oddLen
  | accEmpty
  | range
  | capacity
  | lenMismatch
  | divZero
deriving DecidableEq, Repr

/-- The seven read-only registers, by name (R16); the host addresses them by number (`RegName.ofNumber`). -/
inductive RegName where
  | status
  | cause
  | finfo
  | acclen
  | config
  | fbsize
  | accsize
deriving DecidableEq, Repr

/-- The host's moves: all the ways the host acts on the engine (R164). -/
inductive HostMove where
  /-- Hand one 128-bit descriptor to the command port (R50). -/
  | submit (d : DescriptorBits)
  /-- Read register `n`, `0 <= n <= 6` (R16). -/
  | readReg (n : Fin 7)
  /-- Write register `n`; ignored (R16; log entry 16). -/
  | writeReg (n : Fin 7) (v : Word)
  /-- Read one FB byte (R12). -/
  | readFb (a : Nat)
  /-- Write one FB byte (R12). -/
  | writeFb (a : Nat) (b : Byte)
  /-- The reset input (R150). -/
  | reset
deriving DecidableEq, Repr

/-- The state. `fb` to `finfo` are the tuple of R22; `cfg` is the instance's constant parameters (R21, log
entry 2); `moves`, `hostRead` and `resets` are the model's own (log entries 6, 8, 5). -/
structure State where
  /-- `G`, `FB_BYTES`, `ACC_WORDS`: constant for the life of the instance (R6, R105). -/
  cfg      : Config
  /-- FB, by byte address (R12). -/
  fb       : List Host.Cell
  /-- ACC, by sample index (R14). -/
  acc      : List (Nat × Sample)
  /-- `ACC_LEN`: number of samples held (R14). -/
  accLen   : Word
  /-- `ACC_FMT`: `0xA`, `0xC` or `0x0` (R14). -/
  accFmt   : BitVec 4
  /-- `ACC_VALID`: an accumulation session is open (R14). -/
  accValid : Bool
  /-- `STATUS.FAULT`: the halted state (R17, R134). -/
  fault    : Bool
  /-- `CAUSE[3:0]` (R16). -/
  cause    : BitVec 4
  /-- `FINFO`: `d[31:0]` of the descriptor that faulted (R16). -/
  finfo    : Word
  /-- The host's moves not yet taken, first one first. -/
  moves    : List HostMove
  /-- What the host's latest read gave it back. -/
  hostRead : Option Word
  /-- How many resets have been applied: the first argument of the free draws (R13). -/
  resets   : Nat
deriving DecidableEq, Repr

/-- Why the model stops. No command does: a command's fault is a next state (R133). -/
inductive Fault where
  /-- Raised by the host moves `readFb` and `writeFb` at an address `>= FB_BYTES`, an address the spec says does
  not exist (R12, R164). Safe: the model stops, and no move of R164 is left out. Log entry 9. -/
  | noSuchFbByte (addr : Nat)
deriving DecidableEq, Repr

/-- Why the model has no meaning to give. -/
inductive Refusal where
  /-- Raised by an arm of `exec` whose instruction is not modelled; no arm raises it. Safe: the model stops. -/
  | notModelled (mnemonic : String)
deriving DecidableEq, Repr

/-- An instance right after reset (R150): control state 0, nothing written to FB or ACC, no move pending. -/
def State.ofConfig (c : Config) : State where
  cfg      := c
  fb       := []
  acc      := []
  accLen   := 0
  accFmt   := 0
  accValid := false
  fault    := false
  cause    := 0
  finfo    := 0
  moves    := []
  hostRead := none
  resets   := 0

/-- The machine right after reset (R150), for the reference instance (log entry 1). -/
def State.reset : State := State.ofConfig Config.reference

end Sys2Proof.Machine
end

