-- ==== Sys2Proof/Machine/Ops.lean ====
section
/-! DEFINITION. The named operations over the state: sparse memories, FB bytes and little-endian accesses (spec/20_memory.md
R31), ACC samples (spec/10_state.md R14), counted loops (R8), fault entry and the halted state
(spec/60_exceptions.md R131 to R134), sessions and reset (R150). -/

namespace Sys2Proof.Machine

/-! ## Sparse memories -/

/-- The canonical form: addresses strictly rising (log entry 3). -/
abbrev Memory.wf {α : Type} (m : Memory α) : Prop := m.Pairwise (fun x y => x.1 < y.1)

/-- What the memory lists at an address, if it lists it. -/
def Memory.find {α : Type} : Memory α → Nat → Option α
  | [], _ => none
  | (k, v) :: m, a => if k = a then some v else Memory.find m a

/-- Write at an address, keeping the canonical form. -/
def Memory.insert {α : Type} : Memory α → Nat → α → Memory α
  | [], a, v => [(a, v)]
  | (k, w) :: m, a, v =>
    if a < k then (a, v) :: (k, w) :: m
    else if a = k then (a, v) :: m
    else (k, w) :: Memory.insert m a v

/-! ## Loops -/

/-- `for i in 0 .. n-1`, ascending; when `n = 0` the body never runs (R8). -/
def forUpto {σ : Type} : Nat → (Nat → σ → σ) → σ → σ
  | 0, _, s => s
  | n + 1, body, s => body n (forUpto n body s)

/-! ## FB -/

/-- `FB[a]`; a byte never written since reset is the free draw (R13). -/
def State.fbByte (s : State) (a : Nat) : Byte :=
  (Memory.find s.fb a).getD (Config.freeFbByte s.resets a)

/-- `FB[a] <- b`. -/
def State.setFbByte (s : State) (a : Nat) (b : Byte) : State :=
  { s with fb := Memory.insert s.fb a b }

/-- `MemRead(a, n)`: little-endian, as an unsigned number (R31). -/
def State.memRead (s : State) : Nat → Nat → Nat
  | _, 0 => 0
  | a, n + 1 => (s.fbByte a).toNat + 256 * s.memRead (a + 1) n

/-- `MemWrite(a, n, v)`: byte `j` is `(v >> (8*j)) mod 256` (R31). -/
def State.memWrite (s : State) (a n v : Nat) : State :=
  forUpto n (fun j t => t.setFbByte (a + j) (BitVec.ofNat 8 (v >>> (8 * j)))) s

/-- The 16-bit lane at byte address `a`: `MemRead(a, 2)`. -/
def State.lane (s : State) (a : Nat) : Sample := BitVec.ofNat 16 (s.memRead a 2)

/-- `MemWrite(a, 2, v)`. -/
def State.setLane (s : State) (a : Nat) (v : Sample) : State := s.memWrite a 2 v.toNat

/-! ## ACC -/

/-- `ACC[i]`; a sample never written since reset is the free draw (R14). -/
def State.accSample (s : State) (i : Nat) : Sample :=
  (Memory.find s.acc i).getD (Config.freeAccSample s.resets i)

/-- `ACC[i] <- v`. -/
def State.setAccSample (s : State) (i : Nat) (v : Sample) : State :=
  { s with acc := Memory.insert s.acc i v }

/-- Open a session: `ACC_LEN <- n`, `ACC_FMT <- f`, `ACC_VALID <- 1` (R113, R115). -/
def State.openSession (s : State) (n : Nat) (f : Format) : State :=
  { s with accLen := BitVec.ofNat 32 n, accFmt := f.code, accValid := true }

/-- Close the session: `ACC_VALID`, `ACC_LEN`, `ACC_FMT` cleared (R123). -/
def State.closeSession (s : State) : State :=
  { s with accLen := 0, accFmt := 0, accValid := false }

/-! ## Faults -/

/-- The codes of R131. -/
def FaultCause.code : FaultCause → BitVec 4
  | .illegal     => 1
  | .misaligned  => 2
  | .oddLen      => 3
  | .accEmpty    => 4
  | .range       => 5
  | .capacity    => 6
  | .lenMismatch => 7
  | .divZero     => 8

/-- Fault entry (R133): `FAULT <- 1`, `CAUSE <- c`, `FINFO <- d[31:0]`, nothing else changes. -/
def State.takeFault (s : State) (c : FaultCause) (info : Word) : State :=
  { s with fault := true, cause := c.code, finfo := info }

/-- `d[31:0]`: the word holding `op`, `fmt` and `rsv` (R131). -/
def firstWord (d : DescriptorBits) : Word := d.extractLsb' 0 32

/-- `d[31:0]` of a command's descriptor (log entry 11). -/
def finfoOf (i : Instr) : Word := firstWord (encode i)

/-- The first check that fails; the lists follow R132's order, lowest code first. -/
def firstFault : List (FaultCause × Bool) → Option FaultCause
  | [] => none
  | (c, failed) :: rest => if failed then some c else firstFault rest

/-- One command: in the halted state it is discarded with no effect (R134); otherwise every check comes before any
change, the first that fails is the fault (R131 to R133), and if none fails the effect is one atomic transition
(R41). -/
def issue (info : Word) (checks : List (FaultCause × Bool)) (effect : State → State) (s : State) :
    Host.Outcome State Fault Refusal :=
  if s.fault then .next s
  else
    match firstFault checks with
    | some c => .next (s.takeFault c info)
    | none => .next (effect s)

/-! ## The checks of R131 -/

/-- `Misaligned`: `d.addr` is odd (R39). -/
def oddAddress (addr : Word) : Bool := addr.toNat % 2 == 1

/-- `OddLen`: `d.len` is odd (R39). -/
def oddLength (len : Word) : Bool := len.toNat % 2 == 1

/-- `AccEmpty`: `ACC_VALID = 0`. -/
def State.noSession (s : State) : Bool := !s.accValid

/-- `Range`: `addr + n > FB_BYTES`, the sum in unbounded naturals (R40). -/
def State.outOfRange (s : State) (addr n : Nat) : Bool := decide (s.cfg.fbBytes < addr + n)

/-- `Capacity`: `len / 2 > ACC_WORDS`. -/
def State.overCapacity (s : State) (len : Nat) : Bool := decide (s.cfg.accWords < len / 2)

/-- `LenMismatch`: `len / 2 != ACC_LEN`. -/
def State.lengthDiffers (s : State) (len : Nat) : Bool := !(len / 2 == s.accLen.toNat)

/-! ## Reset -/

/-- Reset (R150, R151): every state value of R150's table; FB and ACC are unspecified afresh, a new draw for every
byte and sample; the instance's constants stay; the host keeps its moves and what it has read (log entries 5, 6,
8). -/
def State.applyReset (s : State) : State :=
  { State.ofConfig s.cfg with moves := s.moves, hostRead := s.hostRead, resets := s.resets + 1 }

end Sys2Proof.Machine
end

