-- ==== Sys2Proof/Machine/Operands.lean ====
section
/-! DEFINITION. The operand functions: formats, shifts and masks (spec/40_pixelformat_masks.md R70 to R76), the four lane
functions (R81, R86, R91, R93), whole groups (spec/20_memory.md R34), and the two ways a transform walks them. -/

namespace Sys2Proof.Machine

/-! ## Format functions -/

/-- `sample_bits(f)` (R70). -/
def sampleBits : Format → Nat
  | .raw10 => 10
  | .raw12 => 12

/-- `bitshift(f) = 16 - sample_bits(f)` (R71). -/
def bitshift (f : Format) : Nat := 16 - sampleBits f

/-- `left_mask(f, 16) = (0xFFFF << bitshift(f)) mod 2^16` (R72). -/
def leftMask16 (f : Format) : Sample := 0xFFFF#16 <<< bitshift f

/-- `left_mask(f, w)` at width `w = 16 * 2^k`: `left_mask(f, 2w) = (left_mask(f, w) << w) | left_mask(f, w)`, for 32,
64 and 128 (R73) and one step more for 256 (R74). -/
def leftMask (f : Format) : Nat → Nat
  | 0 => (leftMask16 f).toNat
  | k + 1 => (leftMask f k <<< (16 * 2 ^ k)) ||| leftMask f k

/-- `right_mask16(f) = 2^sample_bits(f) - 1` (R75). -/
def rightMask16 (f : Format) : Sample := BitVec.ofNat 16 (2 ^ sampleBits f - 1)

/-- `right_justify(f, v) = v & right_mask16(f)` (R75). -/
def rightJustify (f : Format) (v : Sample) : Sample := v &&& rightMask16 f

/-! ## Lane functions -/

/-- UNPACK's lane: `(v & left_mask(f, 16)) >> bitshift(f)`, a logical shift (R81). -/
def unpackLane (f : Format) (v : Sample) : Sample := (v &&& leftMask16 f) >>> bitshift f

/-- SHL's lane: `(v << bitshift(f)) mod 2^16` (R91). -/
def shlLane (f : Format) (v : Sample) : Sample := v <<< bitshift f

/-- PAD's lane, `pad(f, v) = s | (s >> sample_bits(f))` with `s` the shifted value (R93). -/
def padLane (f : Format) (v : Sample) : Sample := shlLane f v ||| (shlLane f v >>> sampleBits f)

/-! ## Lane groups -/

/-- `G` in bytes (R6). -/
def groupBytes (c : Config) : Nat :=
  match c.group with
  | .g16 => 16
  | .g32 => 32

/-- The `k` for which `8*G = 16 * 2^k`: 128 bits for `G = 16`, 256 for `G = 32` (R86). -/
def groupMaskLevel (c : Config) : Nat :=
  match c.group with
  | .g16 => 3
  | .g32 => 4

/-- `n_groups = len // G` (R34). -/
def groupCount (c : Config) (len : Nat) : Nat := len / groupBytes c

/-- The lane at `a` replaced by its image. -/
def State.mapLane (s : State) (lane : Sample → Sample) (a : Nat) : State := s.setLane a (lane (s.lane a))

/-- The loop of R81, R91 and R93: every lane of every whole group, in place, ascending. -/
def State.mapLanes (s : State) (lane : Sample → Sample) (addr len : Nat) : State :=
  forUpto (groupCount s.cfg len)
    (fun g t =>
      forUpto (groupBytes s.cfg / 2) (fun i u => u.mapLane lane (addr + groupBytes s.cfg * g + 2 * i)) t) s

/-- The loop of R86: every whole group as one `8*G`-bit number, ANDed with the mask, in place, ascending. -/
def State.maskGroups (s : State) (mask addr len : Nat) : State :=
  forUpto (groupCount s.cfg len)
    (fun g t =>
      t.memWrite (addr + groupBytes s.cfg * g) (groupBytes s.cfg)
        (t.memRead (addr + groupBytes s.cfg * g) (groupBytes s.cfg) &&& mask)) s

/-- `n_conv = (len // G) * (G / 2)`: the lanes that lie in whole groups (R115). -/
def convertedLanes (c : Config) (len : Nat) : Nat := groupCount c len * (groupBytes c / 2)

end Sys2Proof.Machine
end

