-- ==== Sys2Proof/Machine/Accumulator.lean ====
section
/-! DEFINITION. The five accumulator commands: LDACC, LDACCU, ADDACC, DIVACC, STACC (spec/45_accumulator.md R113, R115, R117,
R120, R123). Each check list is in R132's order. -/

namespace Sys2Proof.Machine

/-- `for i in 0 .. n-1: ACC[i] <- value i`, where a value may read the state (FB or ACC) as it then stands. -/
def State.fillAcc (s : State) (n : Nat) (value : Nat → State → Sample) : State :=
  forUpto n (fun i t => t.setAccSample i (value i t)) s

/-- `for i in 0 .. n-1: MemWrite(addr + 2*i, 2, ACC[i])` (R123). -/
def State.storeAcc (s : State) (addr n : Nat) : State :=
  forUpto n (fun i t => t.setLane (addr + 2 * i) (t.accSample i)) s

/-- LDACC f, addr, len: the lanes as they stand (R113); an open session is overwritten (R114). -/
def execLdacc (f : Format) (addr len : Word) (s : State) : Host.Outcome State Fault Refusal :=
  issue (finfoOf (.ldacc f addr len))
    [(.misaligned, oddAddress addr), (.oddLen, oddLength len),
     (.range, s.outOfRange addr.toNat len.toNat), (.capacity, s.overCapacity len.toNat)]
    (fun t => (t.fillAcc (len.toNat / 2) (fun i u => u.lane (addr.toNat + 2 * i))).openSession (len.toNat / 2) f) s

/-- LDACCU's sample `i`: unpacked where its lane lies in a whole group, as it stands in the tail (R115). -/
def ldaccuSample (f : Format) (addr len : Nat) (i : Nat) (s : State) : Sample :=
  if i < convertedLanes s.cfg len then unpackLane f (s.lane (addr + 2 * i)) else s.lane (addr + 2 * i)

/-- LDACCU f, addr, len (R115). -/
def execLdaccu (f : Format) (addr len : Word) (s : State) : Host.Outcome State Fault Refusal :=
  issue (finfoOf (.ldaccu f addr len))
    [(.misaligned, oddAddress addr), (.oddLen, oddLength len),
     (.range, s.outOfRange addr.toNat len.toNat), (.capacity, s.overCapacity len.toNat)]
    (fun t => (t.fillAcc (len.toNat / 2) (ldaccuSample f addr.toNat len.toNat)).openSession (len.toNat / 2) f) s

/-- ADDACC addr, len: the sum mod 2^16, no flag (R117, R118). -/
def execAddacc (addr len : Word) (s : State) : Host.Outcome State Fault Refusal :=
  issue (finfoOf (.addacc addr len))
    [(.misaligned, oddAddress addr), (.oddLen, oddLength len), (.accEmpty, s.noSession),
     (.range, s.outOfRange addr.toNat len.toNat), (.lenMismatch, s.lengthDiffers len.toNat)]
    (fun t => t.fillAcc t.accLen.toNat (fun i u => u.accSample i + u.lane (addr.toNat + 2 * i))) s

/-- DIVACC k: the floor of the unsigned quotient (R120, R121). -/
def execDivacc (k : Sample) (s : State) : Host.Outcome State Fault Refusal :=
  issue (finfoOf (.divacc k))
    [(.accEmpty, s.noSession), (.divZero, k == 0)]
    (fun t => t.fillAcc t.accLen.toNat (fun i u => u.accSample i / k)) s

/-- STACC addr: store every sample and close the session (R123, R124). -/
def execStacc (addr : Word) (s : State) : Host.Outcome State Fault Refusal :=
  issue (finfoOf (.stacc addr))
    [(.misaligned, oddAddress addr), (.accEmpty, s.noSession),
     (.range, s.outOfRange addr.toNat (2 * s.accLen.toNat))]
    (fun t => (t.storeAcc addr.toNat t.accLen.toNat).closeSession) s

end Sys2Proof.Machine
end

