-- ==== Sys2Proof/Machine/Transform.lean ====
section
/-! DEFINITION. The four byte-buffer transforms: UNPACK (spec/41_unpack.md R81), MASK (spec/42_mask.md R86), SHL and PAD
(spec/43_shift_left_pad.md R91, R93). The only fault of a legal one is `Range` (R132). -/

namespace Sys2Proof.Machine

/-- UNPACK f, addr, len (R81). -/
def execUnpack (f : Format) (addr len : Word) (s : State) : Host.Outcome State Fault Refusal :=
  issue (finfoOf (.unpack f addr len))
    [(.range, s.outOfRange addr.toNat len.toNat)]
    (fun t => t.mapLanes (unpackLane f) addr.toNat len.toNat) s

/-- MASK f, addr, len (R86). -/
def execMask (f : Format) (addr len : Word) (s : State) : Host.Outcome State Fault Refusal :=
  issue (finfoOf (.mask f addr len))
    [(.range, s.outOfRange addr.toNat len.toNat)]
    (fun t => t.maskGroups (leftMask f (groupMaskLevel t.cfg)) addr.toNat len.toNat) s

/-- SHL f, addr, len (R91). -/
def execShl (f : Format) (addr len : Word) (s : State) : Host.Outcome State Fault Refusal :=
  issue (finfoOf (.shl f addr len))
    [(.range, s.outOfRange addr.toNat len.toNat)]
    (fun t => t.mapLanes (shlLane f) addr.toNat len.toNat) s

/-- PAD f, addr, len (R93). -/
def execPad (f : Format) (addr len : Word) (s : State) : Host.Outcome State Fault Refusal :=
  issue (finfoOf (.pad f addr len))
    [(.range, s.outOfRange addr.toNat len.toNat)]
    (fun t => t.mapLanes (padLane f) addr.toNat len.toNat) s

end Sys2Proof.Machine
end

