-- ==== Sys2Proof/Machine/Dispatch.lean ====
section
/-! DEFINITION. One arm per constructor of `Instr` (spec/30_encoding.md R53). -/

namespace Sys2Proof.Machine

def exec (i : Instr) (s : State) : Host.Outcome State Fault Refusal :=
  match i with
  | .unpack f addr len => Sys2Proof.Machine.execUnpack f addr len s
  | .mask f addr len => Sys2Proof.Machine.execMask f addr len s
  | .shl f addr len => Sys2Proof.Machine.execShl f addr len s
  | .pad f addr len => Sys2Proof.Machine.execPad f addr len s
  | .ldacc f addr len => Sys2Proof.Machine.execLdacc f addr len s
  | .ldaccu f addr len => Sys2Proof.Machine.execLdaccu f addr len s
  | .addacc addr len => Sys2Proof.Machine.execAddacc addr len s
  | .divacc k => Sys2Proof.Machine.execDivacc k s
  | .stacc addr => Sys2Proof.Machine.execStacc addr s

end Sys2Proof.Machine
end

