-- ==== Sys2Proof/Machine/Flags.lean ====
section
/-! DEFINITION. The status bits and the seven read-only registers as the host reads them (spec/10_state.md R16, R17). The
engine has no condition codes (R18). -/

namespace Sys2Proof.Machine

/-- One status bit. -/
def bit (b : Bool) : BitVec 1 := if b then 1 else 0

/-- `STATUS`: BUSY [0] is 0 in every state (R17, R41), FAULT [1], ACC_VALID [2], reserved [3], ACC_FMT [7:4],
reserved [31:8] (R17). -/
def State.status (s : State) : Word :=
  0#24 ++ (s.accFmt ++ (0#1 ++ (bit s.accValid ++ (bit s.fault ++ 0#1))))

/-- The number of a register, 0 to 6 (R16). -/
def RegName.number : RegName → Fin 7
  | .status  => 0
  | .cause   => 1
  | .finfo   => 2
  | .acclen  => 3
  | .config  => 4
  | .fbsize  => 5
  | .accsize => 6

/-- The register of a number, 0 to 6 (R16). -/
def RegName.ofNumber : Fin 7 → RegName
  | 0 => .status
  | 1 => .cause
  | 2 => .finfo
  | 3 => .acclen
  | 4 => .config
  | 5 => .fbsize
  | 6 => .accsize

/-- The content of a register (R16). -/
def State.readRegister (s : State) : RegName → Word
  | .status  => s.status
  | .cause   => s.cause.setWidth 32
  | .finfo   => s.finfo
  | .acclen  => s.accLen
  | .config  => BitVec.ofNat 32 (groupBytes s.cfg)
  | .fbsize  => BitVec.ofNat 32 s.cfg.fbBytes
  | .accsize => BitVec.ofNat 32 s.cfg.accWords

end Sys2Proof.Machine
end

