-- ==== Sys2Proof/Machine/Port.lean ====
section
/-! DEFINITION. The command port and the host's other moves (spec/30_encoding.md R50, R57; spec/70_reset_and_hazards.md R164). -/

namespace Sys2Proof.Machine

/-- A descriptor at the command port: a legal one runs its command, any other raises `Illegal` (R54, R57); in the
halted state either is discarded, by `issue` (R134). -/
def submitDescriptor (d : DescriptorBits) (s : State) : Host.Outcome State Fault Refusal :=
  match decode d with
  | .ok i => exec i s
  | .error _ => issue (firstWord d) [(.illegal, true)] (fun t => t) s

/-- What one host move does (R164). FB bytes are 8 bits; the host gets one back zero-extended (log entry 8). -/
def hostMove (m : HostMove) (s : State) : Host.Outcome State Fault Refusal :=
  match m with
  | .submit d => submitDescriptor d s
  | .readReg n => .next { s with hostRead := some (s.readRegister (RegName.ofNumber n)) }
  | .writeReg _ _ => .next s
  | .readFb a =>
    if a < s.cfg.fbBytes then .next { s with hostRead := some ((s.fbByte a).setWidth 32) }
    else .fault (.noSuchFbByte a)
  | .writeFb a b => if a < s.cfg.fbBytes then .next (s.setFbByte a b) else .fault (.noSuchFbByte a)
  | .reset => .next s.applyReset

/-- The move that hands over the descriptor of a table row's word: the bits above `nbits` are 0 (R51). -/
def submitWord (nbits w : Nat) : HostMove := .submit (BitVec.ofNat 128 (w % 2 ^ nbits))

end Sys2Proof.Machine
end

