-- ==== Sys2Proof/Machine/Step.lean ====
section
/-! DEFINITION. One step: the host's next move, or nothing when none is pending (spec/20_memory.md R42,
spec/60_exceptions.md R140; log entries 6, 7). -/

namespace Sys2Proof.Machine

/-- One step takes the first pending move; an engine with none is idle and stays as it is. -/
def step (s : State) : Host.Outcome State Fault Refusal :=
  match s.moves with
  | [] => .next s
  | m :: rest => hostMove m { s with moves := rest }

/-- The state with the descriptor of a table row's word as the host's very next move: the engine fetches nothing, it
takes descriptors from the command port (R11, R50; log entry 7). -/
def State.withFetchWord (s : State) (nbits w : Nat) : State :=
  { s with moves := submitWord nbits w :: s.moves }

end Sys2Proof.Machine
end

