-- ==== Sys2Proof/Safety.lean ====
section
/-! DEFINITION. The terms claims use: the launch premises (spec/70_reset_and_hazards.md R165), a run that ended well (R162), the
invariants of every reachable state (spec/10_state.md R22), and R131's table of fault conditions as a predicate. -/

namespace Sys2Proof.Machine

/-- `Idle`: `BUSY = 0` (R165). -/
abbrev State.Idle (s : State) : Prop := s.status.getLsbD 0 = false

/-- `NoFault`: `STATUS.FAULT = 0` (R165); a run ended well exactly when it holds (R162). -/
abbrev State.NoFault (s : State) : Prop := s.fault = false

/-- `NoSession`: `ACC_VALID = 0` (R165). -/
abbrev State.NoSession (s : State) : Prop := s.accValid = false

/-- The FB byte at `a` has been written by the host or by a command since the last reset (R165). -/
abbrev State.Written (s : State) (a : Nat) : Prop := (Memory.find s.fb a).isSome

/-- The ACC sample `i` has been written since the last reset. -/
abbrev State.SampleWritten (s : State) (i : Nat) : Prop := (Memory.find s.acc i).isSome

/-- The invariants of R22 on the parameters and the control state. -/
structure State.ControlInv (s : State) : Prop where
  legal    : s.cfg.Legal
  lenFits  : s.accLen.toNat ≤ s.cfg.accWords
  closed   : s.accValid = false → s.accLen = 0 ∧ s.accFmt = 0
  opened   : s.accValid = true → s.accFmt = 0xA ∨ s.accFmt = 0xC
  noFault  : s.fault = false → s.cause = 0 ∧ s.finfo = 0
  faulted  : s.fault = true → 1 ≤ s.cause.toNat ∧ s.cause.toNat ≤ 8

/-- The invariants on the two memories: canonical form, nothing outside `0 .. FB_BYTES-1` or `0 .. ACC_WORDS-1` (R12,
R14, R19), and every sample of an open session written (R14). -/
structure State.MemoryInv (s : State) : Prop where
  fbWf     : Memory.wf s.fb
  accWf    : Memory.wf s.acc
  fbFits   : ∀ a, s.Written a → a < s.cfg.fbBytes
  accFits  : ∀ i, s.SampleWritten i → i < s.cfg.accWords
  filled   : s.accValid = true → ∀ i, i < s.accLen.toNat → s.SampleWritten i

/-- What every reachable state satisfies (R22). -/
structure State.Inv (s : State) : Prop where
  control : s.ControlInv
  memory  : s.MemoryInv

/-- `addr` and `n` of the FB region a command names: `n = d.len`, or `2*ACC_LEN` for STACC; DIVACC names none (R40). -/
def State.region (s : State) : Instr → Option (Nat × Nat)
  | .unpack _ addr len => some (addr.toNat, len.toNat)
  | .mask _ addr len   => some (addr.toNat, len.toNat)
  | .shl _ addr len    => some (addr.toNat, len.toNat)
  | .pad _ addr len    => some (addr.toNat, len.toNat)
  | .ldacc _ addr len  => some (addr.toNat, len.toNat)
  | .ldaccu _ addr len => some (addr.toNat, len.toNat)
  | .addacc addr len   => some (addr.toNat, len.toNat)
  | .divacc _          => none
  | .stacc addr        => some (addr.toNat, 2 * s.accLen.toNat)

/-- R131's table, row by row: the condition of a cause on a legal command in a state (`Illegal` is a condition on the
descriptor, never on a legal command). -/
def State.raises (s : State) : FaultCause → Instr → Prop
  | .illegal, _ => False
  | .misaligned, .ldacc _ addr _ => addr.toNat % 2 = 1
  | .misaligned, .ldaccu _ addr _ => addr.toNat % 2 = 1
  | .misaligned, .addacc addr _ => addr.toNat % 2 = 1
  | .misaligned, .stacc addr => addr.toNat % 2 = 1
  | .oddLen, .ldacc _ _ len => len.toNat % 2 = 1
  | .oddLen, .ldaccu _ _ len => len.toNat % 2 = 1
  | .oddLen, .addacc _ len => len.toNat % 2 = 1
  | .accEmpty, .addacc _ _ => s.accValid = false
  | .accEmpty, .divacc _ => s.accValid = false
  | .accEmpty, .stacc _ => s.accValid = false
  | .range, i => ∃ addr n, s.region i = some (addr, n) ∧ s.cfg.fbBytes < addr + n
  | .capacity, .ldacc _ _ len => s.cfg.accWords < len.toNat / 2
  | .capacity, .ldaccu _ _ len => s.cfg.accWords < len.toNat / 2
  | .lenMismatch, .addacc _ len => len.toNat / 2 ≠ s.accLen.toNat
  | .divZero, .divacc k => k = 0
  | _, _ => False

/-- No condition of R131 holds: the command runs. -/
def State.Accepts (s : State) (i : Instr) : Prop := ∀ c, ¬ s.raises c i

/-- `G * n_groups`: how many bytes from `addr` on a transform of `len` bytes converts (R34, R36). -/
def State.wholeBytes (s : State) (len : Word) : Nat := groupBytes s.cfg * (len.toNat / groupBytes s.cfg)

/-- `(len // G) * (G / 2)`: how many lanes those bytes hold (R34, R115). -/
def State.wholeLanes (s : State) (len : Word) : Nat := len.toNat / groupBytes s.cfg * (groupBytes s.cfg / 2)

/-- The four transforms: commands that convert the whole groups of a buffer in place (R33). -/
inductive Transform where
  | unpack
  | mask
  | shl
  | pad
deriving DecidableEq, Repr

/-- The command of a transform. -/
def Transform.instr : Transform → Format → Word → Word → Instr
  | .unpack => .unpack
  | .mask   => .mask
  | .shl    => .shl
  | .pad    => .pad

/-! ## Frames -/

/-- `t` is `s` but for the contents of FB. -/
abbrev State.SameExceptFb (s t : State) : Prop := { t with fb := s.fb } = s

/-- `t` is `s` but for the contents of ACC: the session's length, tag and valid bit are the same too. -/
abbrev State.SameExceptSamples (s t : State) : Prop := { t with acc := s.acc } = s

/-- `t` is `s` but for the accumulator: `ACC`, `ACC_LEN`, `ACC_FMT`, `ACC_VALID`. -/
abbrev State.SameExceptAccumulator (s t : State) : Prop :=
  { t with acc := s.acc, accLen := s.accLen, accFmt := s.accFmt, accValid := s.accValid } = s

end Sys2Proof.Machine
end

