-- ==== Sys2Proof/Certificates/Slice0/Obligations.lean ====
section
/-! DEFINITION. The statements for the provers: each def is one obligation of OBLIGATIONS.json and cites the rules of spec/ it
formalises. A register or a flag of another machine has no counterpart here: the engine has neither (R10, R18). -/

open Sys2Proof Sys2Proof.Machine

/-! ## Encoding -/

/-- Decoding an encoded command gives it back, every operand at every value (R51, R53, R54). -/
def Obligations.DecodeInvertsEncode : Prop :=
  ∀ i : Instr, decode (encode i) = .ok i

/-- A descriptor decodes exactly when R54 calls it legal, and then to the one command whose fields it holds. -/
def Obligations.DecodesExactlyTheLegalDescriptors : Prop :=
  ∀ d : DescriptorBits,
    ((Descriptor.ofBits d).wellFormed = true ↔ ∃ i, decode d = .ok i) ∧
    ∀ i, decode d = .ok i → encode i = d

/-- A descriptor selects a row of the opcode table exactly when it decodes to that row's command, and decodes to
nothing when it selects no row (R61). -/
def Obligations.TableRowSelectsItsCommand : Prop :=
  ∀ d : DescriptorBits,
    (∀ r ∈ opcodeTable, r.selects d = true ↔ ∃ i, decode d = .ok i ∧ i.mnemonic = r.mnemonic) ∧
    ((∀ r ∈ opcodeTable, r.selects d = false) → ∀ i, decode d ≠ .ok i)

/-- Descriptors written out word by word from R51's fields and R53's opcodes (95_test_vectors.md D8; R60's example
comes first). -/
def Obligations.WrittenDescriptorsDecode : Prop :=
  decode 0x000000000000002000000100000000A1 = .ok (.unpack .raw10 0x100 32) ∧
  decode 0x000000000000001300000021000000C2 = .ok (.mask .raw12 0x21 19) ∧
  decode 0x000000000000001000000000000000A3 = .ok (.shl .raw10 0 16) ∧
  decode 0x000000000000001000000000000000C4 = .ok (.pad .raw12 0 16) ∧
  decode 0x000000000000002000000000000000A5 = .ok (.ldacc .raw10 0 32) ∧
  decode 0x000000000000001000000000000000C6 = .ok (.ldaccu .raw12 0 16) ∧
  decode 0x00000000000000100000001000000007 = .ok (.addacc 0x10 16) ∧
  decode 0x00000004000000000000000000000008 = .ok (.divacc 4) ∧
  decode 0x00000000000000000000004000000009 = .ok (.stacc 0x40)

/-! ## The command port and the host's moves -/

/-- A step whose pending move is a legal descriptor runs exactly its command, the move taken off the list. -/
def Obligations.StepRunsTheDecodedCommand : Prop :=
  ∀ (s : State) (d : DescriptorBits) (rest : List HostMove) (i : Instr),
    s.moves = .submit d :: rest → decode d = .ok i → step s = exec i { s with moves := rest }

/-- Moves are taken one at a time and in order: a step takes the first and leaves the others (R42). With none
pending a step changes nothing (the model's choice, log entry 6). -/
def Obligations.StepTakesTheFirstMove : Prop :=
  (∀ s t : State, step s = .next t → t.moves = s.moves.tail) ∧
  (∀ s : State, s.moves = [] → step s = .next s)

/-- Submitting a descriptor that R54 does not call legal raises `Illegal` (code 1), changes no other state, and halts
the engine (R57). -/
def Obligations.IllegalDescriptorHalts : Prop :=
  ∀ (s : State) (d : DescriptorBits) (rest : List HostMove),
    s.NoFault → s.moves = .submit d :: rest → (Descriptor.ofBits d).wellFormed = false →
    step s = .next { s with moves := rest, fault := true, cause := 1, finfo := d.extractLsb' 0 32 }

/-- When conditions of R131 hold for a legal descriptor, the one with the lowest code is reported (R132) and entered
as R133 says: `FAULT`, `CAUSE`, `FINFO` written, nothing else changed. -/
def Obligations.LowestFaultIsEntered : Prop :=
  ∀ (s : State) (d : DescriptorBits) (rest : List HostMove) (i : Instr) (c : FaultCause),
    s.NoFault → s.moves = .submit d :: rest → decode d = .ok i →
    s.raises c i → (∀ c', s.raises c' i → c.code.toNat ≤ c'.code.toNat) →
    step s = .next { s with moves := rest, fault := true, cause := c.code, finfo := d.extractLsb' 0 32 }

/-- The codes of R131's table. -/
def Obligations.FaultCodes : Prop :=
  FaultCause.code .illegal = 1 ∧ FaultCause.code .misaligned = 2 ∧ FaultCause.code .oddLen = 3 ∧
  FaultCause.code .accEmpty = 4 ∧ FaultCause.code .range = 5 ∧ FaultCause.code .capacity = 6 ∧
  FaultCause.code .lenMismatch = 7 ∧ FaultCause.code .divZero = 8

/-- The halted engine accepts every descriptor and discards it with no effect whatever, at the port and in the
command itself; the host may still read the registers and read and write FB (R134). -/
def Obligations.HaltedEngineDiscardsDescriptors : Prop :=
  ∀ (s : State) (rest : List HostMove), s.fault = true →
    (∀ d, s.moves = .submit d :: rest → step s = .next { s with moves := rest }) ∧
    (∀ i, exec i s = .next s) ∧
    (∀ n, s.moves = .readReg n :: rest →
      step s = .next { s with moves := rest, hostRead := some (s.readRegister (RegName.ofNumber n)) }) ∧
    (∀ a, s.moves = .readFb a :: rest → a < s.cfg.fbBytes →
      step s = .next { s with moves := rest, hostRead := some ((s.fbByte a).setWidth 32) }) ∧
    (∀ a b, s.moves = .writeFb a b :: rest → a < s.cfg.fbBytes →
      ∃ t, step s = .next t ∧ t.fbByte a = b ∧ (∀ c, c ≠ a → t.fbByte c = s.fbByte c) ∧
        ({ s with moves := rest }).SameExceptFb t)

/-- Only reset leaves the halted state: any other step keeps `FAULT` and the first fault's record, and a reset
clears them (R135). -/
def Obligations.OnlyResetLeavesTheHaltedState : Prop :=
  (∀ s t : State, s.fault = true → step s = .next t → s.moves.head? ≠ some .reset →
    t.fault = true ∧ t.cause = s.cause ∧ t.finfo = s.finfo) ∧
  (∀ (s : State) (rest : List HostMove), s.moves = .reset :: rest → ∃ t, step s = .next t ∧ t.fault = false)

/-- The host reads each of the seven registers, by its number, at the value of R16's table; a read changes nothing
else, and a write to any number is ignored. -/
def Obligations.HostReadsTheRegisters : Prop :=
  (∀ (s : State) (rest : List HostMove) (n : Fin 7), s.moves = .readReg n :: rest →
    step s = .next { s with moves := rest, hostRead := some (match n with
      | 0 => s.status
      | 1 => 0#28 ++ s.cause
      | 2 => s.finfo
      | 3 => s.accLen
      | 4 => BitVec.ofNat 32 (groupBytes s.cfg)
      | 5 => BitVec.ofNat 32 s.cfg.fbBytes
      | 6 => BitVec.ofNat 32 s.cfg.accWords) }) ∧
  (∀ (s : State) (rest : List HostMove) (n : Fin 7) (v : Word), s.moves = .writeReg n v :: rest →
    step s = .next { s with moves := rest })

/-- The fields of `STATUS` (R17). -/
def Obligations.StatusFields : Prop :=
  ∀ s : State,
    s.status.getLsbD 0 = false ∧ s.status.getLsbD 1 = s.fault ∧ s.status.getLsbD 2 = s.accValid ∧
    s.status.getLsbD 3 = false ∧ s.status.extractLsb' 4 4 = s.accFmt ∧ s.status.extractLsb' 8 24 = 0

/-- The host writes and reads FB bytes (R12, R164): a write changes that byte and nothing else, a read changes
nothing. At an address that does not exist either stops the model (log entry 9, the model's choice). -/
def Obligations.HostAccessesFb : Prop :=
  (∀ (s : State) (rest : List HostMove) (a : Nat) (b : Byte), s.moves = .writeFb a b :: rest →
    (a < s.cfg.fbBytes →
      ∃ t, step s = .next t ∧ t.fbByte a = b ∧ (∀ c, c ≠ a → t.fbByte c = s.fbByte c) ∧
        ({ s with moves := rest }).SameExceptFb t) ∧
    (s.cfg.fbBytes ≤ a → step s = .fault (.noSuchFbByte a))) ∧
  (∀ (s : State) (rest : List HostMove) (a : Nat), s.moves = .readFb a :: rest →
    (a < s.cfg.fbBytes →
      step s = .next { s with moves := rest, hostRead := some ((s.fbByte a).setWidth 32) }) ∧
    (s.cfg.fbBytes ≤ a → step s = .fault (.noSuchFbByte a)))

/-- Reset, in any state, halted or not, leaves the values of R150's table: the control state 0, the constants as they
were, and no FB byte that the host may rely on (R151; that an unspecified byte is one the state does not list is log
entry 3, and that reset leaves the host's own pending moves is log entry 6). -/
def Obligations.ResetLeavesTheTablesValues : Prop :=
  ∀ (s : State) (rest : List HostMove), s.moves = .reset :: rest →
    ∃ t, step s = .next t ∧
      t.status = 0 ∧ t.cause = 0 ∧ t.finfo = 0 ∧ t.accLen = 0 ∧ t.accFmt = 0 ∧ t.accValid = false ∧
      t.fault = false ∧ t.cfg = s.cfg ∧ (∀ a, ¬ t.Written a) ∧ (∀ i, ¬ t.SampleWritten i) ∧ t.moves = rest

/-- The state after reset satisfies `Idle`, `NoFault` (hence `CAUSE` = 0, `FINFO` = 0), `NoSession` (hence `ACC_LEN` = 0,
`ACC_FMT` = 0), and no byte of it is `Written` (R165), for every instance. -/
def Obligations.LaunchPremisesHoldAfterReset : Prop :=
  ∀ c : Config, ∀ s : State, (s = State.ofConfig c ∨ ∃ u : State, s = u.applyReset) →
    s.Idle ∧ s.NoFault ∧ s.cause = 0 ∧ s.finfo = 0 ∧ s.NoSession ∧ s.accLen = 0 ∧ s.accFmt = 0 ∧
    ∀ a, ¬ s.Written a

/-- Every command completes: executing it is one total step, whatever the state (R141). -/
def Obligations.EveryCommandCompletes : Prop :=
  ∀ (i : Instr) (s : State), ∃ t, exec i s = .next t

/-- The model refuses nothing, and stops only where the host addresses an FB byte that does not exist (log entry 9). -/
def Obligations.ModelStopsOnlyOnAbsentFbBytes : Prop :=
  ∀ s : State, (∀ r, step s ≠ .refused r) ∧
    ∀ r, step s = .fault r → ∃ a rest, r = .noSuchFbByte a ∧ s.cfg.fbBytes ≤ a ∧
      (s.moves = .readFb a :: rest ∨ ∃ b, s.moves = .writeFb a b :: rest)

/-! ## Masks and lanes -/

/-- The table of values (R77), and the left mask is the right mask shifted, with no truncation (R76). -/
def Obligations.FormatConstants : Prop :=
  (Format.code .raw10 = 0xA ∧ sampleBits .raw10 = 10 ∧ bitshift .raw10 = 6 ∧ leftMask16 .raw10 = 0xFFC0 ∧
    rightMask16 .raw10 = 0x03FF ∧ leftMask .raw10 1 = 0xFFC0FFC0 ∧ leftMask .raw10 2 = 0xFFC0FFC0FFC0FFC0 ∧
    leftMask .raw10 3 = 0xFFC0FFC0FFC0FFC0FFC0FFC0FFC0FFC0 ∧
    leftMask .raw10 4 = 0xFFC0FFC0FFC0FFC0FFC0FFC0FFC0FFC0FFC0FFC0FFC0FFC0FFC0FFC0FFC0FFC0 ∧
    (leftMask16 .raw10).extractLsb' 0 8 = 0xC0 ∧ (leftMask16 .raw10).extractLsb' 8 8 = 0xFF) ∧
  (Format.code .raw12 = 0xC ∧ sampleBits .raw12 = 12 ∧ bitshift .raw12 = 4 ∧ leftMask16 .raw12 = 0xFFF0 ∧
    rightMask16 .raw12 = 0x0FFF ∧ leftMask .raw12 1 = 0xFFF0FFF0 ∧ leftMask .raw12 2 = 0xFFF0FFF0FFF0FFF0 ∧
    leftMask .raw12 3 = 0xFFF0FFF0FFF0FFF0FFF0FFF0FFF0FFF0 ∧
    leftMask .raw12 4 = 0xFFF0FFF0FFF0FFF0FFF0FFF0FFF0FFF0FFF0FFF0FFF0FFF0FFF0FFF0FFF0FFF0 ∧
    (leftMask16 .raw12).extractLsb' 0 8 = 0xF0 ∧ (leftMask16 .raw12).extractLsb' 8 8 = 0xFF) ∧
  (∀ f, (leftMask16 f).toNat = (rightMask16 f).toNat <<< bitshift f ∧
    (rightMask16 f).toNat <<< bitshift f < 2 ^ 16)

/-- The set bits of the mask of width `16 * 2^k` are the data-carrying positions of every lane in it: the 16-bit mask
tiled (R72, R73, R74, R79). -/
def Obligations.LeftMaskMarksTheDataBits : Prop :=
  ∀ (f : Format) (k j : Nat),
    (leftMask f k).testBit j = (decide (j < 16 * 2 ^ k) && decide (bitshift f ≤ j % 16))

/-- The mask in UNPACK is redundant with the shift, and the result's high `bitshift` bits are zero (R82). -/
def Obligations.UnpackedLaneIsTheShiftedLane : Prop :=
  ∀ (f : Format) (v : Sample),
    unpackLane f v = v >>> bitshift f ∧ (unpackLane f v).toNat ≤ (rightMask16 f).toNat ∧
    ∀ j, sampleBits f ≤ j → (unpackLane f v).getLsbD j = false

/-- SHL and UNPACK are inverse on justified data (R92), UNPACK undoes PAD on every right-justified value (R94), and PAD
is SHL but for the filled low bits (R95). -/
def Obligations.LaneFunctionsInvertEachOther : Prop :=
  ∀ (f : Format) (v : Sample),
    (v.toNat ≤ (rightMask16 f).toNat → unpackLane f (shlLane f v) = v) ∧
    shlLane f (unpackLane f v) = v &&& leftMask16 f ∧
    unpackLane f (padLane f (rightJustify f v)) = rightJustify f v ∧
    padLane f v &&& leftMask16 f = shlLane f v ∧
    padLane f v = shlLane f v ||| (shlLane f v >>> sampleBits f)

/-- The two padding literals of the source, and PAD ignores input bits above the sample (R93). -/
def Obligations.PadLiterals : Prop :=
  padLane .raw10 0b0000100110100110 = 0b0110100110011010 ∧
  padLane .raw12 0b0000100110100110 = 0b1001101001101001 ∧
  ∀ (f : Format) (v : Sample), padLane f v = padLane f (rightJustify f v)

/-! ## FB -/

/-- The two access primitives: a read is the little-endian sum of its bytes, a write sets each byte, touches no other
and is read back (R31). -/
def Obligations.LittleEndianAccess : Prop :=
  ∀ (s : State) (a n : Nat),
    s.memRead a n = ((List.range n).map (fun j => (s.fbByte (a + j)).toNat * 256 ^ j)).sum ∧
    ∀ v, v < 256 ^ n →
      (s.memWrite a n v).memRead a n = v ∧
      (∀ j, j < n → ((s.memWrite a n v).fbByte (a + j)).toNat = (v >>> (8 * j)) % 256) ∧
      ∀ c, c < a ∨ a + n ≤ c → (s.memWrite a n v).fbByte c = s.fbByte c

/-- A group read as one number and as lanes is the same data, and an AND with the tiled mask is the AND of every lane
with the 16-bit mask (R32). -/
def Obligations.GroupAndItsLanesAreTheSameData : Prop :=
  ∀ (s : State) (f : Format) (a k i : Nat), i < 2 ^ k →
    (s.lane (a + 2 * i)).toNat = (s.memRead a (2 * 2 ^ k) >>> (16 * i)) % 2 ^ 16 ∧
    ((s.memRead a (2 * 2 ^ k) &&& leftMask f k) >>> (16 * i)) % 2 ^ 16 =
      (s.lane (a + 2 * i) &&& leftMask16 f).toNat

/-! ## The transforms -/

/-- UNPACK in range completes: every lane of every whole group is masked and shifted right, every other byte of FB is
unchanged, and so is the rest of the state (R81). -/
def Obligations.UnpackConvertsWholeGroups : Prop :=
  ∀ (f : Format) (addr len : Word) (s : State), s.NoFault → addr.toNat + len.toNat ≤ s.cfg.fbBytes →
    ∃ t, exec (.unpack f addr len) s = .next t ∧
      (∀ i, i < s.wholeLanes len →
        t.lane (addr.toNat + 2 * i) = (s.lane (addr.toNat + 2 * i) &&& leftMask16 f) >>> bitshift f) ∧
      (∀ a, a < addr.toNat ∨ addr.toNat + s.wholeBytes len ≤ a → t.fbByte a = s.fbByte a) ∧
      s.SameExceptFb t

/-- MASK in range completes: every lane of every whole group is ANDed with the 16-bit mask (R86, R87), every other byte
of FB is unchanged, and so is the rest of the state. -/
def Obligations.MaskZeroesThePadding : Prop :=
  ∀ (f : Format) (addr len : Word) (s : State), s.NoFault → addr.toNat + len.toNat ≤ s.cfg.fbBytes →
    ∃ t, exec (.mask f addr len) s = .next t ∧
      (∀ i, i < s.wholeLanes len →
        t.lane (addr.toNat + 2 * i) = s.lane (addr.toNat + 2 * i) &&& leftMask16 f) ∧
      (∀ a, a < addr.toNat ∨ addr.toNat + s.wholeBytes len ≤ a → t.fbByte a = s.fbByte a) ∧
      s.SameExceptFb t

/-- SHL in range completes: every lane of every whole group is shifted left and truncated to 16 bits (R91), every other
byte of FB is unchanged, and so is the rest of the state. -/
def Obligations.ShlShiftsWholeGroups : Prop :=
  ∀ (f : Format) (addr len : Word) (s : State), s.NoFault → addr.toNat + len.toNat ≤ s.cfg.fbBytes →
    ∃ t, exec (.shl f addr len) s = .next t ∧
      (∀ i, i < s.wholeLanes len →
        (t.lane (addr.toNat + 2 * i)).toNat =
          ((s.lane (addr.toNat + 2 * i)).toNat * 2 ^ bitshift f) % 2 ^ 16) ∧
      (∀ a, a < addr.toNat ∨ addr.toNat + s.wholeBytes len ≤ a → t.fbByte a = s.fbByte a) ∧
      s.SameExceptFb t

/-- PAD in range completes: every lane of every whole group is shifted left and its vacated low bits take a copy of the
shifted value's top `bitshift` bits (R93), every other byte of FB is unchanged, and so is the rest of the state. -/
def Obligations.PadFillsWholeGroups : Prop :=
  ∀ (f : Format) (addr len : Word) (s : State), s.NoFault → addr.toNat + len.toNat ≤ s.cfg.fbBytes →
    ∃ t, exec (.pad f addr len) s = .next t ∧
      (∀ i, i < s.wholeLanes len → ∀ j, j < 16 →
        (t.lane (addr.toNat + 2 * i)).getLsbD j =
          if bitshift f ≤ j then (s.lane (addr.toNat + 2 * i)).getLsbD (j - bitshift f)
          else (s.lane (addr.toNat + 2 * i)).getLsbD (j + sampleBits f - bitshift f)) ∧
      (∀ a, a < addr.toNat ∨ addr.toNat + s.wholeBytes len ≤ a → t.fbByte a = s.fbByte a) ∧
      s.SameExceptFb t

/-- The frame of the four transforms, whatever they answer: no byte outside the whole groups changes, the tail among
them (R35, R36), and of the rest only `FAULT`, `CAUSE`, `FINFO` may change, and only together. -/
def Obligations.TransformFrame : Prop :=
  ∀ (x : Transform) (f : Format) (addr len : Word) (s t : State), exec (x.instr f addr len) s = .next t →
    (∀ a, a < addr.toNat ∨ addr.toNat + s.wholeBytes len ≤ a → t.fbByte a = s.fbByte a) ∧
    ({ t with fb := s.fb, fault := s.fault, cause := s.cause, finfo := s.finfo }) = s ∧
    (t.fault = s.fault → t.cause = s.cause ∧ t.finfo = s.finfo)

/-- A transform's result on a group depends only on that group's bytes and the format: two states that agree on group
`g` agree on it afterwards, whatever every other byte holds (R44; so neither the tail nor any other byte is read, R35,
R36). -/
def Obligations.GroupsAreIndependent : Prop :=
  ∀ (x : Transform) (f : Format) (addr len : Word) (s s' t t' : State) (g : Nat),
    s.NoFault → s'.NoFault → s.cfg = s'.cfg → addr.toNat + len.toNat ≤ s.cfg.fbBytes →
    g < len.toNat / groupBytes s.cfg →
    (∀ j, j < groupBytes s.cfg →
      s.fbByte (addr.toNat + groupBytes s.cfg * g + j) = s'.fbByte (addr.toNat + groupBytes s.cfg * g + j)) →
    exec (x.instr f addr len) s = .next t → exec (x.instr f addr len) s' = .next t' →
    ∀ j, j < groupBytes s.cfg →
      t.fbByte (addr.toNat + groupBytes s.cfg * g + j) = t'.fbByte (addr.toNat + groupBytes s.cfg * g + j)

/-- Two instances with different `G` agree on every byte outside `[addr + 32*(len//32), addr + 16*(len//16))`, so on
every byte when `len` is a multiple of 32; the group in that interval is left alone under `G = 32` (R84, R89, R97, R102).
They agree on everything but FB and the constant `G` too. -/
def Obligations.KernelWidthsAgree : Prop :=
  ∀ (x : Transform) (f : Format) (addr len : Word) (s t t' : State), s.cfg.group = .g16 →
    exec (x.instr f addr len) s = .next t →
    exec (x.instr f addr len) { s with cfg := { s.cfg with group := .g32 } } = .next t' →
    (∀ a, ¬ (addr.toNat + 32 * (len.toNat / 32) ≤ a ∧ a < addr.toNat + 16 * (len.toNat / 16)) →
      t'.fbByte a = t.fbByte a) ∧
    (len.toNat % 32 = 0 → ∀ a, t'.fbByte a = t.fbByte a) ∧
    (∀ a, addr.toNat + 32 * (len.toNat / 32) ≤ a → t'.fbByte a = s.fbByte a) ∧
    { t' with fb := t.fb, cfg := t.cfg } = t

/-- UNPACK byte by byte, with `s = bitshift(f)`: the low byte becomes `((hi << (8 - s)) mod 256) | (lo >> s)`, the high
one `hi >> s` (R83). -/
def Obligations.UnpackByteView : Prop :=
  ∀ (f : Format) (addr len : Word) (s t : State) (i : Nat), s.NoFault →
    addr.toNat + len.toNat ≤ s.cfg.fbBytes → exec (.unpack f addr len) s = .next t → i < s.wholeLanes len →
    t.fbByte (addr.toNat + 2 * i) =
      (s.fbByte (addr.toNat + 2 * i + 1) <<< (8 - bitshift f)) ||| (s.fbByte (addr.toNat + 2 * i) >>> bitshift f) ∧
    t.fbByte (addr.toNat + 2 * i + 1) = s.fbByte (addr.toNat + 2 * i + 1) >>> bitshift f

/-- MASK lane by lane and byte by byte: the byte at an even offset from `addr` is ANDed with `0xC0` (Raw10) or `0xF0`
(Raw12), the byte at an odd offset is unchanged, for odd `addr` too (R87). -/
def Obligations.MaskByteView : Prop :=
  ∀ (f : Format) (addr len : Word) (s t : State) (i : Nat), s.NoFault →
    addr.toNat + len.toNat ≤ s.cfg.fbBytes → exec (.mask f addr len) s = .next t → i < s.wholeLanes len →
    t.lane (addr.toNat + 2 * i) = s.lane (addr.toNat + 2 * i) &&& leftMask16 f ∧
    t.fbByte (addr.toNat + 2 * i) =
      s.fbByte (addr.toNat + 2 * i) &&& (match f with | .raw10 => 0xC0 | .raw12 => 0xF0) ∧
    t.fbByte (addr.toNat + 2 * i + 1) = s.fbByte (addr.toNat + 2 * i + 1)

/-- UNPACK after MASK gives the same bytes as UNPACK alone (R88), and a second MASK changes no byte (R86). -/
def Obligations.MaskBeforeUnpackChangesNothing : Prop :=
  ∀ (f : Format) (addr len : Word) (s m : State), exec (.mask f addr len) s = .next m →
    (∀ t u, exec (.unpack f addr len) m = .next t → exec (.unpack f addr len) s = .next u →
      ∀ a, t.fbByte a = u.fbByte a) ∧
    (∀ t, exec (.mask f addr len) m = .next t → ∀ a, t.fbByte a = m.fbByte a)

/-- As commands: SHL after UNPACK leaves the bytes of MASK (R92), and MASK after PAD leaves the bytes of SHL (R95). -/
def Obligations.TransformsComposeAsTheirLanes : Prop :=
  ∀ (f : Format) (addr len : Word) (s : State),
    (∀ p t u, exec (.unpack f addr len) s = .next p → exec (.shl f addr len) p = .next t →
      exec (.mask f addr len) s = .next u → ∀ a, t.fbByte a = u.fbByte a) ∧
    (∀ p t u, exec (.pad f addr len) s = .next p → exec (.mask f addr len) p = .next t →
      exec (.shl f addr len) s = .next u → ∀ a, t.fbByte a = u.fbByte a)

/-! ## The accumulator -/

/-- LDACC accepted completes: `ACC[i]` is lane `i` as it stands for all `len/2` lanes, the length, tag and valid bit are
set, and nothing else changes; an open session is overwritten without a fault (R113, R114). -/
def Obligations.LdaccLoadsTheLanes : Prop :=
  ∀ (f : Format) (addr len : Word) (s : State), s.NoFault →
    addr.toNat % 2 = 0 → len.toNat % 2 = 0 → addr.toNat + len.toNat ≤ s.cfg.fbBytes →
    len.toNat / 2 ≤ s.cfg.accWords →
    ∃ t, exec (.ldacc f addr len) s = .next t ∧
      (∀ i, t.accSample i = if i < len.toNat / 2 then s.lane (addr.toNat + 2 * i) else s.accSample i) ∧
      t.accLen.toNat = len.toNat / 2 ∧ t.accFmt = f.code ∧ t.accValid = true ∧ s.SameExceptAccumulator t

/-- LDACCU accepted completes: the lanes of whole groups enter ACC masked and shifted, the tail lanes as they stand, FB is
unchanged (R115, R116; a session that is open is overwritten, R114). -/
def Obligations.LdaccuLoadsUnpackedLanes : Prop :=
  ∀ (f : Format) (addr len : Word) (s : State), s.NoFault →
    addr.toNat % 2 = 0 → len.toNat % 2 = 0 → addr.toNat + len.toNat ≤ s.cfg.fbBytes →
    len.toNat / 2 ≤ s.cfg.accWords →
    ∃ t, exec (.ldaccu f addr len) s = .next t ∧
      (∀ i, t.accSample i =
        if i < s.wholeLanes len then (s.lane (addr.toNat + 2 * i) &&& leftMask16 f) >>> bitshift f
        else if i < len.toNat / 2 then s.lane (addr.toNat + 2 * i) else s.accSample i) ∧
      t.accLen.toNat = len.toNat / 2 ∧ t.accFmt = f.code ∧ t.accValid = true ∧ s.SameExceptAccumulator t

/-- ADDACC accepted completes: every one of the `ACC_LEN` samples takes the sum with its lane mod 2^16 (R117, R118), and
nothing else changes, no flag among it. -/
def Obligations.AddaccAddsEverySample : Prop :=
  ∀ (addr len : Word) (s : State), s.NoFault → s.accValid = true →
    addr.toNat % 2 = 0 → len.toNat % 2 = 0 → addr.toNat + len.toNat ≤ s.cfg.fbBytes →
    len.toNat / 2 = s.accLen.toNat →
    ∃ t, exec (.addacc addr len) s = .next t ∧
      (∀ i, (t.accSample i).toNat =
        if i < s.accLen.toNat then ((s.accSample i).toNat + (s.lane (addr.toNat + 2 * i)).toNat) % 2 ^ 16
        else (s.accSample i).toNat) ∧
      s.SameExceptSamples t

/-- DIVACC accepted completes: every one of the `ACC_LEN` samples takes the floor of its quotient, the `q` with
`q*k <= a < (q+1)*k` (R120, R121), and nothing else changes. -/
def Obligations.DivaccDividesEverySample : Prop :=
  ∀ (k : Sample) (s : State), s.NoFault → s.accValid = true → k ≠ 0 →
    ∃ t, exec (.divacc k) s = .next t ∧
      (∀ i, i < s.accLen.toNat →
        (t.accSample i).toNat * k.toNat ≤ (s.accSample i).toNat ∧
        (s.accSample i).toNat < ((t.accSample i).toNat + 1) * k.toNat) ∧
      (∀ i, s.accLen.toNat ≤ i → t.accSample i = s.accSample i) ∧
      s.SameExceptSamples t

/-- STACC accepted completes: the `2*ACC_LEN` bytes at `addr` hold the samples, every other byte of FB is unchanged, the
session is closed, and nothing else changes (R123). -/
def Obligations.StaccStoresAndCloses : Prop :=
  ∀ (addr : Word) (s : State), s.NoFault → s.accValid = true → addr.toNat % 2 = 0 →
    addr.toNat + 2 * s.accLen.toNat ≤ s.cfg.fbBytes →
    ∃ t, exec (.stacc addr) s = .next t ∧
      (∀ i, i < s.accLen.toNat → t.lane (addr.toNat + 2 * i) = s.accSample i) ∧
      (∀ a, a < addr.toNat ∨ addr.toNat + 2 * s.accLen.toNat ≤ a → t.fbByte a = s.fbByte a) ∧
      t.accValid = false ∧ t.accLen = 0 ∧ t.accFmt = 0 ∧
      { t with fb := s.fb, accValid := s.accValid, accLen := s.accLen, accFmt := s.accFmt } = s

/-- The frame of the commands that write ACC, whatever they answer: every byte of FB is unchanged; ADDACC and DIVACC keep
the session's length, tag and valid bit; of the rest only `FAULT`, `CAUSE`, `FINFO` may change, and only together. -/
def Obligations.AccumulatorWriteFrame : Prop :=
  ∀ (f : Format) (addr len : Word) (k : Sample) (i : Instr) (s t : State),
    (i = .ldacc f addr len ∨ i = .ldaccu f addr len ∨ i = .addacc addr len ∨ i = .divacc k) →
    exec i s = .next t →
    (∀ a, t.fbByte a = s.fbByte a) ∧
    ((i = .addacc addr len ∨ i = .divacc k) →
      t.accLen = s.accLen ∧ t.accFmt = s.accFmt ∧ t.accValid = s.accValid) ∧
    ({ t with
        acc := s.acc, accLen := s.accLen, accFmt := s.accFmt, accValid := s.accValid
        fault := s.fault, cause := s.cause, finfo := s.finfo }) = s ∧
    (t.fault = s.fault → t.cause = s.cause ∧ t.finfo = s.finfo)

/-- The frame of STACC, whatever it answers: no byte of FB outside the `2*ACC_LEN` at `addr` changes, no sample of ACC, and
of the rest only the session's length, tag and valid bit, and `FAULT`, `CAUSE`, `FINFO`, the last three only together. -/
def Obligations.StaccFrame : Prop :=
  ∀ (addr : Word) (s t : State), exec (.stacc addr) s = .next t →
    (∀ a, a < addr.toNat ∨ addr.toNat + 2 * s.accLen.toNat ≤ a → t.fbByte a = s.fbByte a) ∧
    (∀ i, t.accSample i = s.accSample i) ∧
    ({ t with
        fb := s.fb, accLen := s.accLen, accFmt := s.accFmt, accValid := s.accValid
        fault := s.fault, cause := s.cause, finfo := s.finfo }) = s ∧
    (t.fault = s.fault → t.cause = s.cause ∧ t.finfo = s.finfo)

/-- LDACCU leaves in the accumulator exactly what UNPACK followed by LDACC of the same region would, without modifying FB
(R115). -/
def Obligations.LdaccuIsUnpackThenLdacc : Prop :=
  ∀ (f : Format) (addr len : Word) (s t p q : State), s.NoFault →
    addr.toNat % 2 = 0 → len.toNat % 2 = 0 → addr.toNat + len.toNat ≤ s.cfg.fbBytes →
    len.toNat / 2 ≤ s.cfg.accWords →
    exec (.ldaccu f addr len) s = .next t → exec (.unpack f addr len) s = .next p →
    exec (.ldacc f addr len) p = .next q →
    (∀ i, t.accSample i = q.accSample i) ∧ t.accLen = q.accLen ∧ t.accFmt = q.accFmt ∧
      t.accValid = q.accValid ∧ ∀ a, t.fbByte a = s.fbByte a

/-- Nothing reads the format tag: a command run under another `ACC_FMT` changes the same things, the tag itself apart; in
particular ADDACC, DIVACC and STACC compare nothing with it (R111). -/
def Obligations.FormatTagIsNeverRead : Prop :=
  ∀ (i : Instr) (s t : State) (x : BitVec 4), exec i s = .next t →
    ∃ u, exec i { s with accFmt := x } = .next u ∧ { u with accFmt := t.accFmt } = t

/-- Samples the session does not hold are unobservable: two states that differ only in samples `ACC[i]` with
`i >= ACC_LEN`, or in any sample while `ACC_VALID = 0`, take the same step and still differ in such samples only (R14). -/
def Obligations.SamplesOutsideTheSessionAreUnobservable : Prop :=
  ∀ s s' : State, { s' with acc := s.acc } = s →
    (s.accValid = true → ∀ i, i < s.accLen.toNat → s.accSample i = s'.accSample i) →
    (∀ t, step s = .next t → ∃ t', step s' = .next t' ∧ { t' with acc := t.acc } = t ∧
      (t.accValid = true → ∀ i, i < t.accLen.toNat → t.accSample i = t'.accSample i)) ∧
    (∀ r, step s = .fault r → step s' = .fault r)

/-- Samples enter and change only through LDACC, LDACCU, ADDACC and DIVACC, or become unspecified by reset: no other move
of the host reaches ACC (R14, R15). -/
def Obligations.OnlyAccumulatorCommandsChangeSamples : Prop :=
  ∀ (s t : State) (i : Nat), step s = .next t → t.accSample i ≠ s.accSample i →
    s.moves.head? = some .reset ∨
    ∃ d rest, s.moves = .submit d :: rest ∧
      ((∃ f addr len, decode d = .ok (.ldacc f addr len)) ∨ (∃ f addr len, decode d = .ok (.ldaccu f addr len)) ∨
       (∃ addr len, decode d = .ok (.addacc addr len)) ∨ (∃ k, decode d = .ok (.divacc k)))

/-- FB is written only by UNPACK, MASK, SHL, PAD and STACC and by the host's write of that byte, and becomes unspecified by
reset (R12, R151). -/
def Obligations.OnlyTransformsStaccAndTheHostChangeFb : Prop :=
  ∀ (s t : State) (a : Nat), step s = .next t → t.fbByte a ≠ s.fbByte a →
    s.moves.head? = some .reset ∨ (∃ b, s.moves.head? = some (.writeFb a b)) ∨
    ∃ d rest, s.moves = .submit d :: rest ∧
      ((∃ x f addr len, decode d = .ok (Transform.instr x f addr len)) ∨ (∃ addr, decode d = .ok (.stacc addr)))

/-- Averaging: with a frame of the one constant value `c` at `addr` taken `N` times, `LDACC`, `N - 1` times `ADDACC`, `DIVACC N`, `STACC out`
leave `c` in every lane of `out`, whenever `N * c < 2^16` and `1 <= N <= 0xFFFF` (R126). -/
def Obligations.AverageOfEqualFrames : Prop :=
  ∀ (f : Format) (addr len out : Word) (c k : Sample) (s : State), s.NoFault →
    addr.toNat % 2 = 0 → len.toNat % 2 = 0 → out.toNat % 2 = 0 →
    addr.toNat + len.toNat ≤ s.cfg.fbBytes → out.toNat + len.toNat ≤ s.cfg.fbBytes →
    len.toNat / 2 ≤ s.cfg.accWords →
    (∀ i, i < len.toNat / 2 → s.lane (addr.toNat + 2 * i) = c) →
    1 ≤ k.toNat → k.toNat * c.toNat < 2 ^ 16 →
    s.moves = .submit (encode (.ldacc f addr len)) ::
      (List.replicate (k.toNat - 1) (.submit (encode (.addacc addr len))) ++
        [.submit (encode (.divacc k)), .submit (encode (.stacc out))]) →
    ∃ t : State, Host.Core.run Sys2Proof.core (k.toNat + 2) s = .next t ∧ t.fault = false ∧ t.accValid = false ∧
      ∀ i, i < len.toNat / 2 → t.lane (out.toNat + 2 * i) = c

/-! ## Invariants -/

/-- No step changes the parameters of the instance: `G` is the same for every command it ever executes, before and
after any reset (R105), and so are `FB_BYTES` and `ACC_WORDS` (R150). -/
def Obligations.ParametersNeverChange : Prop :=
  ∀ s t : State, step s = .next t → t.cfg = s.cfg

/-- Every step keeps the invariants of R22 on the control state. -/
def Obligations.StepKeepsTheControlInvariants : Prop :=
  ∀ s t : State, s.ControlInv → step s = .next t → t.ControlInv

/-- Every step keeps the whole invariant: R22's, the memories' canonical form and bounds, and every sample of an open
session written. -/
def Obligations.StepKeepsTheInvariant : Prop :=
  ∀ s t : State, s.Inv → step s = .next t → t.Inv

/-- The invariant holds after reset, for every legal instance and for the reference one. -/
def Obligations.InvariantHoldsAfterReset : Prop :=
  (∀ c : Config, c.Legal → (State.ofConfig c).Inv) ∧ State.reset.Inv
end

