-- ==== Sys2Proof/Laws/Memory.lean ====
section
/-! SUPPORT. The laws of sparse memories: read after write, the canonical form kept, equal contents are equal data. -/

namespace Sys2Proof.Machine

variable {α : Type}

@[simp] theorem Memory.find_nil (a : Nat) : Memory.find ([] : Memory α) a = none := rfl

@[simp] theorem Memory.find_insert_same (m : Memory α) (a : Nat) (v : α) :
    Memory.find (Memory.insert m a v) a = some v := by
  induction m with
  | nil => simp [Memory.insert, Memory.find]
  | cons e m ih =>
    obtain ⟨k, w⟩ := e
    simp only [Memory.insert]
    split
    · simp [Memory.find]
    · split
      · simp [Memory.find]
      · next h => simp [Memory.find, ih, Ne.symm h]

theorem Memory.find_insert_ne (m : Memory α) {a b : Nat} (v : α) (h : b ≠ a) :
    Memory.find (Memory.insert m a v) b = Memory.find m b := by
  induction m with
  | nil => simp [Memory.insert, Memory.find, Ne.symm h]
  | cons e m ih =>
    obtain ⟨k, w⟩ := e
    simp only [Memory.insert]
    split
    · simp [Memory.find, Ne.symm h]
    · split
      · next _ hk => subst hk; simp [Memory.find, Ne.symm h]
      · simp [Memory.find, ih]

/-- Read after write, both cases. -/
theorem Memory.find_insert (m : Memory α) (a b : Nat) (v : α) :
    Memory.find (Memory.insert m a v) b = if b = a then some v else Memory.find m b := by
  split
  · next h => subst h; simp
  · next h => exact Memory.find_insert_ne m v h

theorem Memory.wf_nil : Memory.wf ([] : Memory α) := List.Pairwise.nil

theorem Memory.mem_insert {m : Memory α} {a : Nat} {v : α} {e : Nat × α} (h : e ∈ Memory.insert m a v) :
    e = (a, v) ∨ e ∈ m := by
  induction m with
  | nil => simpa [Memory.insert] using h
  | cons e' m ih =>
    obtain ⟨k, w⟩ := e'
    simp only [Memory.insert] at h
    split at h
    · simpa using h
    · split at h
      · simp only [List.mem_cons] at h ⊢; tauto
      · simp only [List.mem_cons] at h ⊢; rcases h with h | h
        · tauto
        · have := ih h; tauto

/-- A write keeps the canonical form. -/
theorem Memory.insert_wf {m : Memory α} (h : Memory.wf m) (a : Nat) (v : α) : Memory.wf (Memory.insert m a v) := by
  induction m with
  | nil => exact List.pairwise_singleton _ _
  | cons e m ih =>
    obtain ⟨k, w⟩ := e
    obtain ⟨hk, hm⟩ := List.pairwise_cons.mp h
    simp only [Memory.insert]
    split
    · next hlt =>
      refine List.pairwise_cons.mpr ⟨fun e he => ?_, h⟩
      rcases List.mem_cons.mp he with rfl | he
      · exact hlt
      · exact Nat.lt_trans hlt (hk e he)
    · split
      · next _ heq => subst heq; exact List.pairwise_cons.mpr ⟨hk, hm⟩
      · next hge hne =>
        refine List.pairwise_cons.mpr ⟨fun e he => ?_, ih hm⟩
        rcases Memory.mem_insert he with rfl | he
        · show k < a
          omega
        · exact hk e he

theorem Memory.find_eq_none_of_lt {m : Memory α} {a : Nat} (h : ∀ e ∈ m, a < e.1) : Memory.find m a = none := by
  induction m with
  | nil => rfl
  | cons e m ih =>
    obtain ⟨k, w⟩ := e
    have hk : a < k := h (k, w) List.mem_cons_self
    simp [Memory.find, ih fun e he => h e (List.mem_cons_of_mem _ he), (Nat.ne_of_lt hk).symm]

/-- Canonical memories with the same contents are the same data. -/
theorem Memory.ext {m m' : Memory α} (h : Memory.wf m) (h' : Memory.wf m')
    (same : ∀ a, Memory.find m a = Memory.find m' a) : m = m' := by
  induction m generalizing m' with
  | nil =>
    cases m' with
    | nil => rfl
    | cons e m' =>
      obtain ⟨k, w⟩ := e
      have := same k
      simp [Memory.find] at this
  | cons e m ih =>
    obtain ⟨k, w⟩ := e
    obtain ⟨hk, hm⟩ := List.pairwise_cons.mp h
    cases m' with
    | nil =>
      have := same k
      simp [Memory.find] at this
    | cons e' m' =>
      obtain ⟨k', w'⟩ := e'
      obtain ⟨hk', hm'⟩ := List.pairwise_cons.mp h'
      have hkk : k = k' := by
        rcases Nat.lt_trichotomy k k' with hlt | heq | hgt
        · have := same k
          simp [Memory.find, (Nat.ne_of_lt hlt).symm,
            Memory.find_eq_none_of_lt fun e he => Nat.lt_trans hlt (hk' e he)] at this
        · exact heq
        · have := same k'
          simp [Memory.find, (Nat.ne_of_lt hgt).symm,
            Memory.find_eq_none_of_lt fun e he => Nat.lt_trans hgt (hk e he)] at this
      subst hkk
      have hw : w = w' := by simpa [Memory.find] using same k
      subst hw
      refine congrArg _ (ih hm hm' fun a => ?_)
      by_cases ha : k = a
      · subst ha
        rw [Memory.find_eq_none_of_lt hk, Memory.find_eq_none_of_lt hk']
      · simpa [Memory.find, ha] using same a

end Sys2Proof.Machine
end

