-- ==== Sys2Proof/Laws/State.lean ====
section
/-! SUPPORT. One lemma per field per update of the state, so that no later proof unfolds a record update. -/

namespace Sys2Proof.Machine

variable (s : State)

@[simp] theorem State.setFbByte_cfg (a : Nat) (b : Byte) : (s.setFbByte a b).cfg = s.cfg := rfl
@[simp] theorem State.setFbByte_fb (a : Nat) (b : Byte) : (s.setFbByte a b).fb = Memory.insert s.fb a b := rfl
@[simp] theorem State.setFbByte_acc (a : Nat) (b : Byte) : (s.setFbByte a b).acc = s.acc := rfl
@[simp] theorem State.setFbByte_accLen (a : Nat) (b : Byte) : (s.setFbByte a b).accLen = s.accLen := rfl
@[simp] theorem State.setFbByte_accFmt (a : Nat) (b : Byte) : (s.setFbByte a b).accFmt = s.accFmt := rfl
@[simp] theorem State.setFbByte_accValid (a : Nat) (b : Byte) : (s.setFbByte a b).accValid = s.accValid := rfl
@[simp] theorem State.setFbByte_fault (a : Nat) (b : Byte) : (s.setFbByte a b).fault = s.fault := rfl
@[simp] theorem State.setFbByte_cause (a : Nat) (b : Byte) : (s.setFbByte a b).cause = s.cause := rfl
@[simp] theorem State.setFbByte_finfo (a : Nat) (b : Byte) : (s.setFbByte a b).finfo = s.finfo := rfl
@[simp] theorem State.setFbByte_moves (a : Nat) (b : Byte) : (s.setFbByte a b).moves = s.moves := rfl
@[simp] theorem State.setFbByte_hostRead (a : Nat) (b : Byte) : (s.setFbByte a b).hostRead = s.hostRead := rfl
@[simp] theorem State.setFbByte_resets (a : Nat) (b : Byte) : (s.setFbByte a b).resets = s.resets := rfl

@[simp] theorem State.setAccSample_cfg (i : Nat) (v : Sample) : (s.setAccSample i v).cfg = s.cfg := rfl
@[simp] theorem State.setAccSample_fb (i : Nat) (v : Sample) : (s.setAccSample i v).fb = s.fb := rfl
@[simp] theorem State.setAccSample_acc (i : Nat) (v : Sample) : (s.setAccSample i v).acc = Memory.insert s.acc i v := rfl
@[simp] theorem State.setAccSample_accLen (i : Nat) (v : Sample) : (s.setAccSample i v).accLen = s.accLen := rfl
@[simp] theorem State.setAccSample_accFmt (i : Nat) (v : Sample) : (s.setAccSample i v).accFmt = s.accFmt := rfl
@[simp] theorem State.setAccSample_accValid (i : Nat) (v : Sample) : (s.setAccSample i v).accValid = s.accValid := rfl
@[simp] theorem State.setAccSample_fault (i : Nat) (v : Sample) : (s.setAccSample i v).fault = s.fault := rfl
@[simp] theorem State.setAccSample_cause (i : Nat) (v : Sample) : (s.setAccSample i v).cause = s.cause := rfl
@[simp] theorem State.setAccSample_finfo (i : Nat) (v : Sample) : (s.setAccSample i v).finfo = s.finfo := rfl
@[simp] theorem State.setAccSample_moves (i : Nat) (v : Sample) : (s.setAccSample i v).moves = s.moves := rfl
@[simp] theorem State.setAccSample_hostRead (i : Nat) (v : Sample) : (s.setAccSample i v).hostRead = s.hostRead := rfl
@[simp] theorem State.setAccSample_resets (i : Nat) (v : Sample) : (s.setAccSample i v).resets = s.resets := rfl

@[simp] theorem State.openSession_cfg (n : Nat) (f : Format) : (s.openSession n f).cfg = s.cfg := rfl
@[simp] theorem State.openSession_fb (n : Nat) (f : Format) : (s.openSession n f).fb = s.fb := rfl
@[simp] theorem State.openSession_acc (n : Nat) (f : Format) : (s.openSession n f).acc = s.acc := rfl
@[simp] theorem State.openSession_accLen (n : Nat) (f : Format) : (s.openSession n f).accLen = BitVec.ofNat 32 n := rfl
@[simp] theorem State.openSession_accFmt (n : Nat) (f : Format) : (s.openSession n f).accFmt = f.code := rfl
@[simp] theorem State.openSession_accValid (n : Nat) (f : Format) : (s.openSession n f).accValid = true := rfl
@[simp] theorem State.openSession_fault (n : Nat) (f : Format) : (s.openSession n f).fault = s.fault := rfl
@[simp] theorem State.openSession_cause (n : Nat) (f : Format) : (s.openSession n f).cause = s.cause := rfl
@[simp] theorem State.openSession_finfo (n : Nat) (f : Format) : (s.openSession n f).finfo = s.finfo := rfl
@[simp] theorem State.openSession_moves (n : Nat) (f : Format) : (s.openSession n f).moves = s.moves := rfl
@[simp] theorem State.openSession_hostRead (n : Nat) (f : Format) : (s.openSession n f).hostRead = s.hostRead := rfl
@[simp] theorem State.openSession_resets (n : Nat) (f : Format) : (s.openSession n f).resets = s.resets := rfl

@[simp] theorem State.closeSession_cfg : (s.closeSession).cfg = s.cfg := rfl
@[simp] theorem State.closeSession_fb : (s.closeSession).fb = s.fb := rfl
@[simp] theorem State.closeSession_acc : (s.closeSession).acc = s.acc := rfl
@[simp] theorem State.closeSession_accLen : (s.closeSession).accLen = 0 := rfl
@[simp] theorem State.closeSession_accFmt : (s.closeSession).accFmt = 0 := rfl
@[simp] theorem State.closeSession_accValid : (s.closeSession).accValid = false := rfl
@[simp] theorem State.closeSession_fault : (s.closeSession).fault = s.fault := rfl
@[simp] theorem State.closeSession_cause : (s.closeSession).cause = s.cause := rfl
@[simp] theorem State.closeSession_finfo : (s.closeSession).finfo = s.finfo := rfl
@[simp] theorem State.closeSession_moves : (s.closeSession).moves = s.moves := rfl
@[simp] theorem State.closeSession_hostRead : (s.closeSession).hostRead = s.hostRead := rfl
@[simp] theorem State.closeSession_resets : (s.closeSession).resets = s.resets := rfl

@[simp] theorem State.takeFault_cfg (c : FaultCause) (w : Word) : (s.takeFault c w).cfg = s.cfg := rfl
@[simp] theorem State.takeFault_fb (c : FaultCause) (w : Word) : (s.takeFault c w).fb = s.fb := rfl
@[simp] theorem State.takeFault_acc (c : FaultCause) (w : Word) : (s.takeFault c w).acc = s.acc := rfl
@[simp] theorem State.takeFault_accLen (c : FaultCause) (w : Word) : (s.takeFault c w).accLen = s.accLen := rfl
@[simp] theorem State.takeFault_accFmt (c : FaultCause) (w : Word) : (s.takeFault c w).accFmt = s.accFmt := rfl
@[simp] theorem State.takeFault_accValid (c : FaultCause) (w : Word) : (s.takeFault c w).accValid = s.accValid := rfl
@[simp] theorem State.takeFault_fault (c : FaultCause) (w : Word) : (s.takeFault c w).fault = true := rfl
@[simp] theorem State.takeFault_cause (c : FaultCause) (w : Word) : (s.takeFault c w).cause = c.code := rfl
@[simp] theorem State.takeFault_finfo (c : FaultCause) (w : Word) : (s.takeFault c w).finfo = w := rfl
@[simp] theorem State.takeFault_moves (c : FaultCause) (w : Word) : (s.takeFault c w).moves = s.moves := rfl
@[simp] theorem State.takeFault_hostRead (c : FaultCause) (w : Word) : (s.takeFault c w).hostRead = s.hostRead := rfl
@[simp] theorem State.takeFault_resets (c : FaultCause) (w : Word) : (s.takeFault c w).resets = s.resets := rfl

@[simp] theorem State.applyReset_cfg : (s.applyReset).cfg = s.cfg := rfl
@[simp] theorem State.applyReset_fb : (s.applyReset).fb = [] := rfl
@[simp] theorem State.applyReset_acc : (s.applyReset).acc = [] := rfl
@[simp] theorem State.applyReset_accLen : (s.applyReset).accLen = 0 := rfl
@[simp] theorem State.applyReset_accFmt : (s.applyReset).accFmt = 0 := rfl
@[simp] theorem State.applyReset_accValid : (s.applyReset).accValid = false := rfl
@[simp] theorem State.applyReset_fault : (s.applyReset).fault = false := rfl
@[simp] theorem State.applyReset_cause : (s.applyReset).cause = 0 := rfl
@[simp] theorem State.applyReset_finfo : (s.applyReset).finfo = 0 := rfl
@[simp] theorem State.applyReset_moves : (s.applyReset).moves = s.moves := rfl
@[simp] theorem State.applyReset_hostRead : (s.applyReset).hostRead = s.hostRead := rfl
@[simp] theorem State.applyReset_resets : (s.applyReset).resets = s.resets + 1 := rfl

@[simp] theorem State.withFetchWord_cfg (n w : Nat) : (s.withFetchWord n w).cfg = s.cfg := rfl
@[simp] theorem State.withFetchWord_fb (n w : Nat) : (s.withFetchWord n w).fb = s.fb := rfl
@[simp] theorem State.withFetchWord_acc (n w : Nat) : (s.withFetchWord n w).acc = s.acc := rfl
@[simp] theorem State.withFetchWord_accLen (n w : Nat) : (s.withFetchWord n w).accLen = s.accLen := rfl
@[simp] theorem State.withFetchWord_accFmt (n w : Nat) : (s.withFetchWord n w).accFmt = s.accFmt := rfl
@[simp] theorem State.withFetchWord_accValid (n w : Nat) : (s.withFetchWord n w).accValid = s.accValid := rfl
@[simp] theorem State.withFetchWord_fault (n w : Nat) : (s.withFetchWord n w).fault = s.fault := rfl
@[simp] theorem State.withFetchWord_cause (n w : Nat) : (s.withFetchWord n w).cause = s.cause := rfl
@[simp] theorem State.withFetchWord_finfo (n w : Nat) : (s.withFetchWord n w).finfo = s.finfo := rfl
@[simp] theorem State.withFetchWord_moves (n w : Nat) : (s.withFetchWord n w).moves = submitWord n w :: s.moves := rfl
@[simp] theorem State.withFetchWord_hostRead (n w : Nat) : (s.withFetchWord n w).hostRead = s.hostRead := rfl
@[simp] theorem State.withFetchWord_resets (n w : Nat) : (s.withFetchWord n w).resets = s.resets := rfl

@[simp] theorem State.ofConfig_cfg (c : Config) : (State.ofConfig c).cfg = c := rfl
@[simp] theorem State.ofConfig_fb (c : Config) : (State.ofConfig c).fb = [] := rfl
@[simp] theorem State.ofConfig_acc (c : Config) : (State.ofConfig c).acc = [] := rfl
@[simp] theorem State.ofConfig_accLen (c : Config) : (State.ofConfig c).accLen = 0 := rfl
@[simp] theorem State.ofConfig_accFmt (c : Config) : (State.ofConfig c).accFmt = 0 := rfl
@[simp] theorem State.ofConfig_accValid (c : Config) : (State.ofConfig c).accValid = false := rfl
@[simp] theorem State.ofConfig_fault (c : Config) : (State.ofConfig c).fault = false := rfl
@[simp] theorem State.ofConfig_cause (c : Config) : (State.ofConfig c).cause = 0 := rfl
@[simp] theorem State.ofConfig_finfo (c : Config) : (State.ofConfig c).finfo = 0 := rfl
@[simp] theorem State.ofConfig_moves (c : Config) : (State.ofConfig c).moves = [] := rfl
@[simp] theorem State.ofConfig_hostRead (c : Config) : (State.ofConfig c).hostRead = none := rfl
@[simp] theorem State.ofConfig_resets (c : Config) : (State.ofConfig c).resets = 0 := rfl

end Sys2Proof.Machine
end

