-- ==== Sys2Proof/Laws/Ops.lean ====
section
/-! SUPPORT. The shared operations, each with the lemmas that say once what it does: loops, FB bytes and lanes, ACC samples, the
check-then-effect form of every command. -/

namespace Sys2Proof.Machine

/-! ## Loops -/

@[simp] theorem forUpto_zero {σ : Type} (body : Nat → σ → σ) (s : σ) : forUpto 0 body s = s := rfl

theorem forUpto_succ {σ : Type} (n : Nat) (body : Nat → σ → σ) (s : σ) :
    forUpto (n + 1) body s = body n (forUpto n body s) := rfl

/-- A relation to the start that every iteration keeps holds at the end; `P i t` speaks of the state before
iteration `i`. -/
theorem forUpto_induct {σ : Type} {P : Nat → σ → Prop} {body : Nat → σ → σ} {s : σ} (n : Nat) (start : P 0 s)
    (next : ∀ i t, i < n → P i t → P (i + 1) (body i t)) : P n (forUpto n body s) := by
  induction n with
  | zero => exact start
  | succ n ih =>
    exact next n _ (Nat.lt_succ_self n) (ih fun i t hi => next i t (Nat.lt_succ_of_lt hi))

/-- A loop in a loop is one loop. -/
theorem forUpto_nested {σ : Type} (n m : Nat) (body : Nat → Nat → σ → σ) (flat : Nat → σ → σ)
    (same : ∀ g i t, i < m → body g i t = flat (m * g + i) t) (s : σ) :
    forUpto n (fun g t => forUpto m (body g) t) s = forUpto (m * n) flat s := by
  have inner : ∀ g k t, k ≤ m → forUpto k (body g) (forUpto (m * g) flat t) = forUpto (m * g + k) flat t := by
    intro g k t hk
    induction k with
    | zero => rfl
    | succ k ih => rw [forUpto_succ, ih (by omega), same g k _ (by omega), ← Nat.add_assoc, forUpto_succ]
  induction n with
  | zero => simp
  | succ n ih => rw [forUpto_succ, ih, inner n m s (Nat.le_refl m), Nat.mul_succ]

/-! ## FB bytes -/

@[simp] theorem State.fbByte_setFbByte_same (s : State) (a : Nat) (b : Byte) : (s.setFbByte a b).fbByte a = b := by
  simp [State.fbByte]

theorem State.fbByte_setFbByte (s : State) (a c : Nat) (b : Byte) :
    (s.setFbByte a b).fbByte c = if c = a then b else s.fbByte c := by
  simp only [State.fbByte, State.setFbByte_fb, State.setFbByte_resets, Memory.find_insert]
  split <;> rfl

/-- Only FB and the reset count decide what a byte reads as. -/
theorem State.fbByte_congr {s t : State} (hf : s.fb = t.fb) (hr : s.resets = t.resets) (a : Nat) :
    s.fbByte a = t.fbByte a := by simp [State.fbByte, hf, hr]

@[simp] theorem State.fbByte_setAccSample (s : State) (i : Nat) (v : Sample) (a : Nat) :
    (s.setAccSample i v).fbByte a = s.fbByte a := rfl

/-! ## Little-endian accesses -/

theorem State.memRead_lt (s : State) (a n : Nat) : s.memRead a n < 256 ^ n := by
  induction n generalizing a with
  | zero => simp [State.memRead]
  | succ n ih =>
    have hb := (s.fbByte a).isLt
    have := ih (a + 1)
    simp only [State.memRead, Nat.pow_succ]
    omega

/-- Byte `j` of a read is the byte at `a + j` (R31). -/
theorem State.memRead_byte (s : State) (a n j : Nat) (hj : j < n) :
    BitVec.ofNat 8 (s.memRead a n >>> (8 * j)) = s.fbByte (a + j) := by
  induction j generalizing a n with
  | zero =>
    cases n with
    | zero => omega
    | succ n =>
      apply BitVec.eq_of_toNat_eq
      have hb := (s.fbByte a).isLt
      simp only [State.memRead, Nat.mul_zero, Nat.shiftRight_zero, BitVec.toNat_ofNat, Nat.add_zero]
      omega
  | succ j ih =>
    cases n with
    | zero => omega
    | succ n =>
      have hb := (s.fbByte a).isLt
      have step : s.memRead a (n + 1) >>> (8 * (j + 1)) = s.memRead (a + 1) n >>> (8 * j) := by
        rw [show 8 * (j + 1) = 8 + 8 * j by omega, Nat.shiftRight_add]
        congr 1
        simp only [State.memRead, Nat.shiftRight_eq_div_pow]
        omega
      rw [step, ih (a + 1) n (by omega)]
      congr 1
      omega

/-- A read depends on its own bytes only. -/
theorem State.memRead_congr {s t : State} {a b n : Nat} (h : ∀ j, j < n → s.fbByte (a + j) = t.fbByte (b + j)) :
    s.memRead a n = t.memRead b n := by
  induction n generalizing a b with
  | zero => rfl
  | succ n ih =>
    have h0 := h 0 (by omega)
    simp only [Nat.add_zero] at h0
    simp only [State.memRead, h0]
    rw [ih fun j hj => ?_]
    have := h (j + 1) (by omega)
    rwa [show a + 1 + j = a + (j + 1) by omega, show b + 1 + j = b + (j + 1) by omega]

/-- All a write does: its own bytes take the bytes of `v` (R31), every other byte stays. -/
theorem State.memWrite_fbByte (s : State) (a n v c : Nat) :
    (s.memWrite a n v).fbByte c =
      if a ≤ c ∧ c < a + n then BitVec.ofNat 8 (v >>> (8 * (c - a))) else s.fbByte c := by
  unfold State.memWrite
  induction n with
  | zero => rw [forUpto_zero, if_neg (by omega)]
  | succ n ih =>
    rw [forUpto_succ, State.fbByte_setFbByte, ih]
    by_cases hc : c = a + n
    · subst hc; simp
    · by_cases hin : a ≤ c ∧ c < a + n
      · rw [if_neg hc, if_pos hin, if_pos (by omega)]
      · rw [if_neg hc, if_neg hin, if_neg (by omega)]

theorem State.SameExceptFb.refl (s : State) : s.SameExceptFb s := rfl

theorem State.SameExceptFb.trans {s t u : State} (h : s.SameExceptFb t) (h' : t.SameExceptFb u) :
    s.SameExceptFb u := by
  unfold State.SameExceptFb at *
  rw [← h, ← h']

/-- What `SameExceptFb` gives, field by field. -/
theorem State.SameExceptFb.fields {s t : State} (h : s.SameExceptFb t) :
    t.cfg = s.cfg ∧ t.acc = s.acc ∧ t.accLen = s.accLen ∧ t.accFmt = s.accFmt ∧ t.accValid = s.accValid ∧
      t.fault = s.fault ∧ t.cause = s.cause ∧ t.finfo = s.finfo ∧ t.moves = s.moves ∧ t.hostRead = s.hostRead ∧
      t.resets = s.resets := by
  unfold State.SameExceptFb at h
  refine ⟨?_, ?_, ?_, ?_, ?_, ?_, ?_, ?_, ?_, ?_, ?_⟩ <;> rw [← h]

theorem State.setFbByte_sameExceptFb (s : State) (a : Nat) (b : Byte) : s.SameExceptFb (s.setFbByte a b) := rfl

/-- A loop whose every iteration changes FB only changes FB only. -/
theorem forUpto_sameExceptFb {body : Nat → State → State} (s : State) (n : Nat)
    (h : ∀ (i : Nat) (t : State), t.SameExceptFb (body i t)) : s.SameExceptFb (forUpto n body s) :=
  forUpto_induct (P := fun _ t => s.SameExceptFb t) n (State.SameExceptFb.refl s)
    fun i t _ ht => ht.trans (h i t)

theorem State.memWrite_sameExceptFb (s : State) (a n v : Nat) : s.SameExceptFb (s.memWrite a n v) :=
  forUpto_sameExceptFb s n fun _ t => t.setFbByte_sameExceptFb _ _

/-! ## Lanes -/

theorem State.lane_toNat (s : State) (a : Nat) :
    (s.lane a).toNat = (s.fbByte a).toNat + 256 * (s.fbByte (a + 1)).toNat := by
  have h := s.memRead_lt a 2
  simp only [State.lane, BitVec.toNat_ofNat, State.memRead] at h ⊢
  omega

theorem State.lane_congr {s t : State} {a : Nat} (h0 : s.fbByte a = t.fbByte a)
    (h1 : s.fbByte (a + 1) = t.fbByte (a + 1)) : s.lane a = t.lane a := by
  apply BitVec.eq_of_toNat_eq
  rw [State.lane_toNat, State.lane_toNat, h0, h1]

/-- A lane's two bytes: the low one at `a`, the high one at `a + 1` (R31). -/
theorem State.fbByte_eq_of_lane (s : State) (a : Nat) :
    s.fbByte a = BitVec.ofNat 8 ((s.lane a).toNat) ∧
      s.fbByte (a + 1) = BitVec.ofNat 8 ((s.lane a).toNat / 256) := by
  have h := s.lane_toNat a
  have h0 := (s.fbByte a).isLt
  have h1 := (s.fbByte (a + 1)).isLt
  constructor <;> apply BitVec.eq_of_toNat_eq <;> simp only [BitVec.toNat_ofNat, h] <;> omega

theorem State.setLane_sameExceptFb (s : State) (a : Nat) (v : Sample) : s.SameExceptFb (s.setLane a v) :=
  s.memWrite_sameExceptFb a 2 v.toNat

/-- All a lane write does to a byte. -/
theorem State.setLane_fbByte (s : State) (a : Nat) (v : Sample) (c : Nat) :
    (s.setLane a v).fbByte c =
      if c = a then BitVec.ofNat 8 v.toNat
      else if c = a + 1 then BitVec.ofNat 8 (v.toNat / 256) else s.fbByte c := by
  rw [State.setLane, State.memWrite_fbByte]
  by_cases h0 : c = a
  · subst h0; simp
  · by_cases h1 : c = a + 1
    · subst h1
      simp [Nat.shiftRight_eq_div_pow]
    · rw [if_neg (by omega), if_neg h0, if_neg h1]

@[simp] theorem State.lane_setLane_same (s : State) (a : Nat) (v : Sample) : (s.setLane a v).lane a = v := by
  apply BitVec.eq_of_toNat_eq
  have := v.isLt
  rw [State.lane_toNat, State.setLane_fbByte, State.setLane_fbByte]
  simp
  omega

/-- A lane write leaves every lane that does not overlap it. -/
theorem State.lane_setLane_disjoint (s : State) {a b : Nat} (v : Sample) (h : b + 2 ≤ a ∨ a + 2 ≤ b) :
    (s.setLane a v).lane b = s.lane b := by
  apply State.lane_congr <;> rw [State.setLane_fbByte, if_neg (by omega), if_neg (by omega)]

@[simp] theorem State.lane_setAccSample (s : State) (i : Nat) (v : Sample) (a : Nat) :
    (s.setAccSample i v).lane a = s.lane a := State.lane_congr rfl rfl

theorem State.lane_eq_of_fb {s t : State} (hf : s.fb = t.fb) (hr : s.resets = t.resets) (a : Nat) :
    s.lane a = t.lane a :=
  State.lane_congr (State.fbByte_congr hf hr _) (State.fbByte_congr hf hr _)

/-! ## ACC samples -/

@[simp] theorem State.accSample_setAccSample_same (s : State) (i : Nat) (v : Sample) :
    (s.setAccSample i v).accSample i = v := by simp [State.accSample]

theorem State.accSample_setAccSample (s : State) (i j : Nat) (v : Sample) :
    (s.setAccSample i v).accSample j = if j = i then v else s.accSample j := by
  simp only [State.accSample, State.setAccSample_acc, State.setAccSample_resets, Memory.find_insert]
  split <;> rfl

theorem State.accSample_congr {s t : State} (ha : s.acc = t.acc) (hr : s.resets = t.resets) (i : Nat) :
    s.accSample i = t.accSample i := by simp [State.accSample, ha, hr]

theorem State.SameExceptSamples.refl (s : State) : s.SameExceptSamples s := rfl

theorem State.SameExceptSamples.trans {s t u : State} (h : s.SameExceptSamples t) (h' : t.SameExceptSamples u) :
    s.SameExceptSamples u := by
  unfold State.SameExceptSamples at *
  rw [← h, ← h']

/-- What `SameExceptSamples` gives, field by field. -/
theorem State.SameExceptSamples.fields {s t : State} (h : s.SameExceptSamples t) :
    t.cfg = s.cfg ∧ t.fb = s.fb ∧ t.accLen = s.accLen ∧ t.accFmt = s.accFmt ∧ t.accValid = s.accValid ∧
      t.fault = s.fault ∧ t.cause = s.cause ∧ t.finfo = s.finfo ∧ t.moves = s.moves ∧ t.hostRead = s.hostRead ∧
      t.resets = s.resets := by
  unfold State.SameExceptSamples at h
  refine ⟨?_, ?_, ?_, ?_, ?_, ?_, ?_, ?_, ?_, ?_, ?_⟩ <;> rw [← h]

/-! ## Commands -/

theorem firstFault_eq_none {checks : List (FaultCause × Bool)} (h : firstFault checks = none) :
    ∀ e ∈ checks, e.2 = false := by
  induction checks with
  | nil => simp
  | cons e rest ih =>
    obtain ⟨c, b⟩ := e
    simp only [firstFault] at h
    split at h
    · cases h
    · next hb =>
      intro e he
      rcases List.mem_cons.mp he with rfl | he
      · simpa using hb
      · exact ih h e he

/-- Everything a command can do (R133, R134): halted, it is discarded; a check fails, the fault is entered; none
fails, the effect takes place. -/
theorem issue_cases (info : Word) (checks : List (FaultCause × Bool)) (effect : State → State) (s : State) :
    (s.fault = true ∧ issue info checks effect s = .next s) ∨
    (s.fault = false ∧ ∃ c, firstFault checks = some c ∧ issue info checks effect s = .next (s.takeFault c info)) ∨
    (s.fault = false ∧ firstFault checks = none ∧ issue info checks effect s = .next (effect s)) := by
  unfold issue
  cases hs : s.fault with
  | true => exact .inl ⟨rfl, rfl⟩
  | false =>
    cases hc : firstFault checks with
    | some c => exact .inr (.inl ⟨rfl, c, rfl, rfl⟩)
    | none => exact .inr (.inr ⟨rfl, rfl, rfl⟩)

/-- A discarded command (R134). -/
theorem issue_halted {s : State} (h : s.fault = true) (info : Word) (checks : List (FaultCause × Bool))
    (effect : State → State) : issue info checks effect s = .next s := by simp [issue, h]

/-- A command with no failing check. -/
theorem issue_runs {s : State} (h : s.fault = false) {checks : List (FaultCause × Bool)}
    (hc : firstFault checks = none) (info : Word) (effect : State → State) :
    issue info checks effect s = .next (effect s) := by simp [issue, h, hc]

/-- A command whose first failing check is `c`. -/
theorem issue_faults {s : State} (h : s.fault = false) {checks : List (FaultCause × Bool)} {c : FaultCause}
    (hc : firstFault checks = some c) (info : Word) (effect : State → State) :
    issue info checks effect s = .next (s.takeFault c info) := by simp [issue, h, hc]

/-- One inversion for all nine commands: whatever is kept by doing nothing, by fault entry and by the effect is
kept by the command. -/
theorem issue_keeps {P : State → Prop} {info : Word} {checks : List (FaultCause × Bool)} {effect : State → State}
    {s t : State} (h : issue info checks effect s = .next t) (same : P s)
    (entered : ∀ c, firstFault checks = some c → s.fault = false → P (s.takeFault c info))
    (done : firstFault checks = none → s.fault = false → P (effect s)) : P t := by
  rcases issue_cases info checks effect s with ⟨_, e⟩ | ⟨hs, c, hc, e⟩ | ⟨hs, hc, e⟩ <;> rw [e] at h <;>
    injection h with h <;> subst h
  · exact same
  · exact entered c hc hs
  · exact done hc hs

@[simp] theorem oddAddress_eq_true (a : Word) : oddAddress a = true ↔ a.toNat % 2 = 1 := by simp [oddAddress]
@[simp] theorem oddLength_eq_true (a : Word) : oddLength a = true ↔ a.toNat % 2 = 1 := by simp [oddLength]
@[simp] theorem State.noSession_eq_true (s : State) : s.noSession = true ↔ s.accValid = false := by
  simp [State.noSession]
@[simp] theorem State.outOfRange_eq_true (s : State) (a n : Nat) :
    s.outOfRange a n = true ↔ s.cfg.fbBytes < a + n := by simp [State.outOfRange]
@[simp] theorem State.overCapacity_eq_true (s : State) (n : Nat) :
    s.overCapacity n = true ↔ s.cfg.accWords < n / 2 := by simp [State.overCapacity]
@[simp] theorem State.lengthDiffers_eq_true (s : State) (n : Nat) :
    s.lengthDiffers n = true ↔ n / 2 ≠ s.accLen.toNat := by simp [State.lengthDiffers]

end Sys2Proof.Machine
end

