-- ==== Sys2Proof/Laws/Accumulator.lean ====
section
/-! SUPPORT. What the two accumulator loops do: fill the first samples of ACC from values that read only FB or the sample
itself, and store them to FB. -/

namespace Sys2Proof.Machine

theorem State.setAccSample_sameExceptSamples (s : State) (i : Nat) (v : Sample) :
    s.SameExceptSamples (s.setAccSample i v) := rfl

/-- Filling ACC changes the samples only. -/
theorem State.fillAcc_sameExceptSamples (s : State) (n : Nat) (value : Nat → State → Sample) :
    s.SameExceptSamples (s.fillAcc n value) :=
  forUpto_induct (P := fun _ t => s.SameExceptSamples t) n (State.SameExceptSamples.refl s)
    fun i t _ ht => ht.trans (t.setAccSample_sameExceptSamples i _)

/-- All a fill does to ACC, when value `i` depends on nothing an earlier iteration wrote. -/
theorem State.fillAcc_accSample (s : State) (n : Nat) (value : Nat → State → Sample)
    (own : ∀ i t, s.SameExceptSamples t → t.accSample i = s.accSample i → value i t = value i s) (j : Nat) :
    (s.fillAcc n value).accSample j = if j < n then value j s else s.accSample j := by
  induction n generalizing j with
  | zero => simp [State.fillAcc]
  | succ n ih =>
    have step : s.fillAcc (n + 1) value = (s.fillAcc n value).setAccSample n (value n (s.fillAcc n value)) := rfl
    rw [step, State.accSample_setAccSample]
    by_cases hj : j = n
    · subst hj
      rw [if_pos rfl, if_pos (Nat.lt_succ_self j)]
      exact own j _ (s.fillAcc_sameExceptSamples j value) (by rw [ih, if_neg (Nat.lt_irrefl j)])
    · rw [if_neg hj, ih]
      by_cases hlt : j < n
      · rw [if_pos hlt, if_pos (by omega)]
      · rw [if_neg hlt, if_neg (by omega)]

theorem State.storeAcc_sameExceptFb (s : State) (addr n : Nat) : s.SameExceptFb (s.storeAcc addr n) :=
  forUpto_sameExceptFb s n fun _ t => t.setLane_sameExceptFb _ _

/-- All a store does to FB: the stored lanes hold the samples, every other byte stays (R123). -/
theorem State.storeAcc_fb (s : State) (addr n : Nat) :
    (∀ i, i < n → (s.storeAcc addr n).lane (addr + 2 * i) = s.accSample i) ∧
    (∀ c, c < addr ∨ addr + 2 * n ≤ c → (s.storeAcc addr n).fbByte c = s.fbByte c) := by
  induction n with
  | zero => exact ⟨fun _ h => by omega, fun _ _ => rfl⟩
  | succ n ih =>
    obtain ⟨lanes, others⟩ := ih
    have step : s.storeAcc addr (n + 1) =
        (s.storeAcc addr n).setLane (addr + 2 * n) ((s.storeAcc addr n).accSample n) := rfl
    have kept := (s.storeAcc_sameExceptFb addr n).fields
    refine ⟨fun i hi => ?_, fun c hc => ?_⟩
    · rw [step]
      by_cases hin : i = n
      · subst hin
        rw [State.lane_setLane_same]
        exact State.accSample_congr (by simp [kept]) (by simp [kept]) i
      · rw [State.lane_setLane_disjoint _ _ (by omega), lanes i (by omega)]
    · rw [step, State.setLane_fbByte, if_neg (by omega), if_neg (by omega), others c (by omega)]

end Sys2Proof.Machine
end

