-- ==== Sys2Proof/Laws/Transform.lean ====
section
/-! SUPPORT. What the two group loops do to FB: every lane of every whole group, and nothing else. -/

namespace Sys2Proof.Machine

theorem groupBytes_pos (c : Config) : 0 < groupBytes c := by unfold groupBytes; split <;> omega

theorem groupBytes_half (c : Config) : groupBytes c = 2 * (groupBytes c / 2) := by unfold groupBytes; split <;> rfl

/-- The lanes of the whole groups fill the whole groups. -/
theorem two_mul_convertedLanes (c : Config) (len : Nat) :
    2 * convertedLanes c len = groupBytes c * groupCount c len := by
  have h := groupBytes_half c
  unfold convertedLanes
  calc 2 * (groupCount c len * (groupBytes c / 2))
      = 2 * (groupBytes c / 2) * groupCount c len := by rw [Nat.mul_comm (groupCount c len), Nat.mul_assoc]
    _ = groupBytes c * groupCount c len := by rw [← h]

/-- The whole groups lie in the buffer (R108). -/
theorem wholeGroups_le (c : Config) (len : Nat) : groupBytes c * groupCount c len ≤ len := Nat.mul_div_le _ _

/-- The two nested loops are one loop over the lanes of the whole groups. -/
theorem State.mapLanes_flat (s : State) (lane : Sample → Sample) (addr len : Nat) :
    s.mapLanes lane addr len =
      forUpto (convertedLanes s.cfg len) (fun i t => t.mapLane lane (addr + 2 * i)) s := by
  unfold State.mapLanes
  rw [forUpto_nested _ _ _ (fun i t => t.mapLane lane (addr + 2 * i)), convertedLanes, Nat.mul_comm]
  intro g i t _
  have h := groupBytes_half s.cfg
  congr 1
  calc addr + groupBytes s.cfg * g + 2 * i
      = addr + 2 * (groupBytes s.cfg / 2) * g + 2 * i := by rw [← h]
    _ = addr + 2 * (groupBytes s.cfg / 2 * g + i) := by rw [Nat.mul_assoc]; omega

theorem State.mapLane_sameExceptFb (s : State) (lane : Sample → Sample) (a : Nat) :
    s.SameExceptFb (s.mapLane lane a) := s.setLane_sameExceptFb _ _

theorem State.mapLanes_sameExceptFb (s : State) (lane : Sample → Sample) (addr len : Nat) :
    s.SameExceptFb (s.mapLanes lane addr len) := by
  rw [State.mapLanes_flat]
  exact forUpto_sameExceptFb s _ fun _ t => t.mapLane_sameExceptFb lane _

/-- Everything the first `n` lanes of the flat loop do to FB. -/
theorem forUpto_mapLane (s : State) (lane : Sample → Sample) (addr n : Nat) :
    (∀ i, (forUpto n (fun i t => t.mapLane lane (addr + 2 * i)) s).lane (addr + 2 * i) =
      if i < n then lane (s.lane (addr + 2 * i)) else s.lane (addr + 2 * i)) ∧
    (∀ c, c < addr ∨ addr + 2 * n ≤ c →
      (forUpto n (fun i t => t.mapLane lane (addr + 2 * i)) s).fbByte c = s.fbByte c) := by
  induction n with
  | zero => exact ⟨fun i => by simp, fun _ _ => rfl⟩
  | succ n ih =>
    obtain ⟨lanes, others⟩ := ih
    rw [forUpto_succ]
    refine ⟨fun i => ?_, fun c hc => ?_⟩
    · rw [State.mapLane]
      by_cases hi : i = n
      · subst hi
        rw [State.lane_setLane_same, lanes, if_neg (Nat.lt_irrefl i), if_pos (Nat.lt_succ_self i)]
      · rw [State.lane_setLane_disjoint _ _ (by omega), lanes]
        by_cases hlt : i < n
        · rw [if_pos hlt, if_pos (by omega)]
        · rw [if_neg hlt, if_neg (by omega)]
    · rw [State.mapLane, State.setLane_fbByte, if_neg (by omega), if_neg (by omega), others c (by omega)]

/-- Every lane of every whole group is replaced by its image (R81, R91, R93). -/
theorem State.mapLanes_lane (s : State) (lane : Sample → Sample) (addr len i : Nat)
    (h : i < convertedLanes s.cfg len) :
    (s.mapLanes lane addr len).lane (addr + 2 * i) = lane (s.lane (addr + 2 * i)) := by
  rw [State.mapLanes_flat, (forUpto_mapLane s lane addr _).1, if_pos h]

/-- Every byte outside the whole groups, the tail among them, is unchanged (R35, R36). -/
theorem State.mapLanes_fbByte_outside (s : State) (lane : Sample → Sample) (addr len c : Nat)
    (h : c < addr ∨ addr + groupBytes s.cfg * groupCount s.cfg len ≤ c) :
    (s.mapLanes lane addr len).fbByte c = s.fbByte c := by
  rw [State.mapLanes_flat]
  refine (forUpto_mapLane s lane addr _).2 c ?_
  rw [two_mul_convertedLanes]
  exact h

theorem State.maskGroups_sameExceptFb (s : State) (mask addr len : Nat) :
    s.SameExceptFb (s.maskGroups mask addr len) :=
  forUpto_sameExceptFb s _ fun _ t => t.memWrite_sameExceptFb _ _ _

/-- Byte `j` of a masked read is the byte ANDed with byte `j` of the mask. -/
theorem State.memRead_and_byte (s : State) (mask a n j : Nat) (hj : j < n) :
    BitVec.ofNat 8 ((s.memRead a n &&& mask) >>> (8 * j)) =
      s.fbByte (a + j) &&& BitVec.ofNat 8 (mask >>> (8 * j)) := by
  rw [Nat.shiftRight_and_distrib, BitVec.ofNat_and, s.memRead_byte a n j hj]

/-- All the group loop of MASK does to FB: byte `c` of a whole group is ANDed with the mask's byte at its place in
the group, every other byte stays (R86, R35, R36). -/
theorem State.maskGroups_fbByte (s : State) (mask addr len c : Nat) :
    (s.maskGroups mask addr len).fbByte c =
      if addr ≤ c ∧ c < addr + groupBytes s.cfg * groupCount s.cfg len then
        s.fbByte c &&& BitVec.ofNat 8 (mask >>> (8 * ((c - addr) % groupBytes s.cfg)))
      else s.fbByte c := by
  unfold State.maskGroups
  have hG := groupBytes_pos s.cfg
  generalize groupBytes s.cfg = G at hG ⊢
  induction groupCount s.cfg len generalizing c with
  | zero => rw [forUpto_zero, if_neg (by omega)]
  | succ n ih =>
    rw [forUpto_succ, State.memWrite_fbByte, Nat.mul_succ]
    by_cases hin : addr + G * n ≤ c ∧ c < addr + G * n + G
    · obtain ⟨j, rfl⟩ : ∃ j, c = addr + G * n + j := ⟨c - (addr + G * n), by omega⟩
      have hj : j < G := by omega
      rw [if_pos hin, if_pos (by omega), Nat.add_sub_cancel_left, State.memRead_and_byte _ _ _ _ _ hj, ih,
        if_neg (by omega), show addr + G * n + j - addr = G * n + j by omega, Nat.mul_add_mod,
        Nat.mod_eq_of_lt hj]
    · rw [if_neg hin, ih]
      by_cases hlow : addr ≤ c ∧ c < addr + G * n
      · rw [if_pos hlow, if_pos (by omega)]
      · rw [if_neg hlow, if_neg (by omega)]

end Sys2Proof.Machine
end

