-- ==== Sys2Proof/Laws/Exec.lean ====
section
/-! SUPPORT. Every command is one `issue` of its checks and its effect, so that what holds of `issue_cases` holds of all nine
arms of `exec` at once; and what each effect leaves alone. -/

namespace Sys2Proof.Machine

/-- The checks a command's meaning makes, in its order (R132). -/
def checksOf (i : Instr) (s : State) : List (FaultCause × Bool) :=
  match i with
  | .unpack _ addr len | .mask _ addr len | .shl _ addr len | .pad _ addr len =>
    [(.range, s.outOfRange addr.toNat len.toNat)]
  | .ldacc _ addr len | .ldaccu _ addr len =>
    [(.misaligned, oddAddress addr), (.oddLen, oddLength len),
     (.range, s.outOfRange addr.toNat len.toNat), (.capacity, s.overCapacity len.toNat)]
  | .addacc addr len =>
    [(.misaligned, oddAddress addr), (.oddLen, oddLength len), (.accEmpty, s.noSession),
     (.range, s.outOfRange addr.toNat len.toNat), (.lenMismatch, s.lengthDiffers len.toNat)]
  | .divacc k => [(.accEmpty, s.noSession), (.divZero, k == 0)]
  | .stacc addr =>
    [(.misaligned, oddAddress addr), (.accEmpty, s.noSession),
     (.range, s.outOfRange addr.toNat (2 * s.accLen.toNat))]

/-- What an accepted command does to the state. -/
def effectOf (i : Instr) (t : State) : State :=
  match i with
  | .unpack f addr len => t.mapLanes (unpackLane f) addr.toNat len.toNat
  | .mask f addr len => t.maskGroups (leftMask f (groupMaskLevel t.cfg)) addr.toNat len.toNat
  | .shl f addr len => t.mapLanes (shlLane f) addr.toNat len.toNat
  | .pad f addr len => t.mapLanes (padLane f) addr.toNat len.toNat
  | .ldacc f addr len =>
    (t.fillAcc (len.toNat / 2) (fun i u => u.lane (addr.toNat + 2 * i))).openSession (len.toNat / 2) f
  | .ldaccu f addr len =>
    (t.fillAcc (len.toNat / 2) (ldaccuSample f addr.toNat len.toNat)).openSession (len.toNat / 2) f
  | .addacc addr _ => t.fillAcc t.accLen.toNat (fun i u => u.accSample i + u.lane (addr.toNat + 2 * i))
  | .divacc k => t.fillAcc t.accLen.toNat (fun i u => u.accSample i / k)
  | .stacc addr => (t.storeAcc addr.toNat t.accLen.toNat).closeSession

theorem exec_eq_issue (i : Instr) (s : State) :
    exec i s = issue (finfoOf i) (checksOf i s) (effectOf i) s := by
  cases i <;> rfl

/-- Whatever is kept by doing nothing, by fault entry and by the effect of an accepted command is kept by `exec`. -/
theorem exec_keeps {P : State → Prop} {i : Instr} {s t : State} (h : exec i s = .next t) (same : P s)
    (entered : ∀ c, s.fault = false → P (s.takeFault c (finfoOf i)))
    (done : firstFault (checksOf i s) = none → s.fault = false → P (effectOf i s)) : P t :=
  issue_keeps (exec_eq_issue i s ▸ h) same (fun c _ hs => entered c hs) done

/-- A fill's own samples: they read FB, or the sample itself. -/
theorem ldaccuSample_own (f : Format) (addr len : Nat) (i : Nat) {s t : State} (h : s.SameExceptSamples t) :
    ldaccuSample f addr len i t = ldaccuSample f addr len i s := by
  have k := h.fields
  simp only [ldaccuSample, k.1, State.lane_eq_of_fb k.2.1 k.2.2.2.2.2.2.2.2.2.2]

theorem lane_own (addr : Nat) {s t : State} (h : s.SameExceptSamples t) : t.lane addr = s.lane addr :=
  State.lane_eq_of_fb h.fields.2.1 h.fields.2.2.2.2.2.2.2.2.2.2 addr

end Sys2Proof.Machine
end

