-- ==== Sys2Proof/Laws/Canonical.lean ====
section
/-! SUPPORT. Every operation over FB and ACC keeps the canonical form of both memories, and the memories after reset have
it. -/

namespace Sys2Proof.Machine

/-- Both memories are in canonical form. -/
def State.Canonical (s : State) : Prop := Memory.wf s.fb ∧ Memory.wf s.acc

/-- A loop whose every iteration keeps the form keeps it. -/
theorem forUpto_canonical {body : Nat → State → State} {s : State} (n : Nat) (h : s.Canonical)
    (each : ∀ i t, t.Canonical → (body i t).Canonical) : (forUpto n body s).Canonical :=
  forUpto_induct (P := fun _ t => State.Canonical t) n h fun i t _ ht => each i t ht

theorem State.setFbByte_canonical {s : State} (h : s.Canonical) (a : Nat) (b : Byte) :
    (s.setFbByte a b).Canonical := ⟨Memory.insert_wf h.1 a b, h.2⟩

theorem State.memWrite_canonical {s : State} (h : s.Canonical) (a n v : Nat) : (s.memWrite a n v).Canonical :=
  forUpto_canonical n h fun _ _ ht => State.setFbByte_canonical ht _ _

theorem State.setLane_canonical {s : State} (h : s.Canonical) (a : Nat) (v : Sample) :
    (s.setLane a v).Canonical := State.memWrite_canonical h a 2 v.toNat

theorem State.setAccSample_canonical {s : State} (h : s.Canonical) (i : Nat) (v : Sample) :
    (s.setAccSample i v).Canonical := ⟨h.1, Memory.insert_wf h.2 i v⟩

theorem State.mapLanes_canonical {s : State} (h : s.Canonical) (lane : Sample → Sample) (addr len : Nat) :
    (s.mapLanes lane addr len).Canonical :=
  forUpto_canonical _ h fun _ _ ht => forUpto_canonical _ ht fun _ _ hu => State.setLane_canonical hu _ _

theorem State.maskGroups_canonical {s : State} (h : s.Canonical) (mask addr len : Nat) :
    (s.maskGroups mask addr len).Canonical :=
  forUpto_canonical _ h fun _ _ ht => State.memWrite_canonical ht _ _ _

theorem State.fillAcc_canonical {s : State} (h : s.Canonical) (n : Nat) (value : Nat → State → Sample) :
    (s.fillAcc n value).Canonical :=
  forUpto_canonical n h fun _ _ ht => State.setAccSample_canonical ht _ _

theorem State.storeAcc_canonical {s : State} (h : s.Canonical) (addr n : Nat) : (s.storeAcc addr n).Canonical :=
  forUpto_canonical n h fun _ _ ht => State.setLane_canonical ht _ _

theorem State.openSession_canonical {s : State} (h : s.Canonical) (n : Nat) (f : Format) :
    (s.openSession n f).Canonical := h

theorem State.closeSession_canonical {s : State} (h : s.Canonical) : s.closeSession.Canonical := h

theorem State.takeFault_canonical {s : State} (h : s.Canonical) (c : FaultCause) (info : Word) :
    (s.takeFault c info).Canonical := h

theorem State.applyReset_canonical (s : State) : s.applyReset.Canonical := ⟨Memory.wf_nil, Memory.wf_nil⟩

theorem State.ofConfig_canonical (c : Config) : (State.ofConfig c).Canonical := ⟨Memory.wf_nil, Memory.wf_nil⟩

theorem State.reset_canonical : State.reset.Canonical := State.ofConfig_canonical _

/-- The effect of every command keeps the form. -/
theorem effectOf_canonical {s : State} (h : s.Canonical) (i : Instr) : (effectOf i s).Canonical := by
  cases i with
  | unpack f addr len => exact State.mapLanes_canonical h _ _ _
  | mask f addr len => exact State.maskGroups_canonical h _ _ _
  | shl f addr len => exact State.mapLanes_canonical h _ _ _
  | pad f addr len => exact State.mapLanes_canonical h _ _ _
  | ldacc f addr len => exact State.openSession_canonical (State.fillAcc_canonical h _ _) _ _
  | ldaccu f addr len => exact State.openSession_canonical (State.fillAcc_canonical h _ _) _ _
  | addacc addr len => exact State.fillAcc_canonical h _ _
  | divacc k => exact State.fillAcc_canonical h _ _
  | stacc addr => exact State.closeSession_canonical (State.storeAcc_canonical h _ _)

end Sys2Proof.Machine
end

