-- ==== Sys2Proof/Laws/Encoding.lean ====
section
/-! SUPPORT. The fields of a descriptor and its 128 bits are the same data, both ways; the format codes are too; and what each
outcome of the decoder says about the fields. -/

namespace Sys2Proof

@[simp] theorem Format.ofCode_code (f : Format) : Format.ofCode f.code = some f := by cases f <;> rfl

/-- The only codes that select a format are the two of R55. -/
theorem Format.ofCode_eq_some {c : BitVec 4} {f : Format} (h : Format.ofCode c = some f) : c = f.code := by
  unfold Format.ofCode at h
  split at h
  · next hc => injection h with h; subst h; exact hc
  · split at h
    · next hc => injection h with h; subst h; exact hc
    · cases h

theorem Format.ofCode_eq_none {c : BitVec 4} : Format.ofCode c = none ↔ ¬ (c = 0xA ∨ c = 0xC) := by
  unfold Format.ofCode
  split
  · simp_all
  · split <;> simp_all

/-- Reading the fields of written fields gives them back (R51). -/
@[simp] theorem Descriptor.ofBits_toBits (x : Descriptor) : Descriptor.ofBits x.toBits = x := by
  obtain ⟨op, fmt, rsv, addr, len, arg⟩ := x
  simp only [Descriptor.ofBits, Descriptor.toBits, Descriptor.mk.injEq]
  refine ⟨?_, ?_, ?_, ?_, ?_, ?_⟩ <;> ext i hi <;>
    simp only [BitVec.getElem_extractLsb', BitVec.getLsbD_append] <;>
    repeat (first | rw [if_pos (by omega)] | rw [if_neg (by omega)])
  all_goals
    rw [BitVec.getLsbD_eq_getElem (by omega)]
    congr 1
    try omega

/-- Writing the read fields gives the bits back (R51). -/
@[simp] theorem Descriptor.toBits_ofBits (d : DescriptorBits) : (Descriptor.ofBits d).toBits = d := by
  apply BitVec.eq_of_getLsbD_eq
  intro i hi
  simp only [Descriptor.ofBits, Descriptor.toBits, BitVec.getLsbD_append, BitVec.getLsbD_extractLsb']
  repeat' split
  all_goals
    rw [decide_eq_true (by omega), Bool.true_and]
    congr 1
    omega

/-- A number below `2^16` in 32 bits is its low half. -/
theorem setWidth_extract_low {v : Word} (h : v.extractLsb' 16 16 = 0) : (v.extractLsb' 0 16).setWidth 32 = v := by
  apply BitVec.eq_of_toNat_eq
  have h := congrArg BitVec.toNat h
  have hv := v.isLt
  simp [Nat.shiftRight_eq_div_pow] at h ⊢
  omega

@[simp] theorem extract_low_setWidth (k : Sample) : (k.setWidth 32).extractLsb' 0 16 = k := by
  apply BitVec.eq_of_toNat_eq
  simpa using k.isLt

@[simp] theorem extract_high_setWidth (k : Sample) : (k.setWidth 32).extractLsb' 16 16 = 0 := by
  apply BitVec.eq_of_toNat_eq
  have hk := k.isLt
  simp [Nat.shiftRight_eq_div_pow]
  omega

/-- A decoder's check: what passes it is what passes the rest. -/
theorem reject_if {p : Prop} [Decidable p] {e : Reject} {r : Except Reject Instr} {i : Instr} :
    (if p then .error e else r) = .ok i ↔ ¬ p ∧ r = .ok i := by
  by_cases hp : p <;> simp [hp]

/-- What an accepted command with a format says about its fields (R54). -/
theorem Descriptor.withFormat_ok {x : Descriptor} {mk : Format → Word → Word → Instr} {i : Instr} :
    x.withFormat mk = .ok i ↔ ∃ f, x.fmt = f.code ∧ x.arg = 0 ∧ mk f x.addr x.len = i := by
  unfold Descriptor.withFormat
  constructor
  · intro h
    split at h
    · cases h
    · next f hf =>
      split at h
      · next ha => injection h with h; exact ⟨f, Format.ofCode_eq_some hf, ha, h⟩
      · cases h
  · rintro ⟨f, hf, ha, rfl⟩
    rw [hf, Format.ofCode_code]
    simp [ha]

/-- What an accepted ADDACC says about its fields (R54). -/
theorem Descriptor.decodeAddacc_ok {x : Descriptor} {i : Instr} :
    x.decodeAddacc = .ok i ↔ x.fmt = 0 ∧ x.arg = 0 ∧ .addacc x.addr x.len = i := by
  simp only [Descriptor.decodeAddacc, reject_if, ne_eq, not_not, Except.ok.injEq]

/-- What an accepted DIVACC says about its fields (R54). -/
theorem Descriptor.decodeDivacc_ok {x : Descriptor} {i : Instr} :
    x.decodeDivacc = .ok i ↔
      x.fmt = 0 ∧ x.addr = 0 ∧ x.len = 0 ∧ x.arg.extractLsb' 16 16 = 0 ∧ .divacc (x.arg.extractLsb' 0 16) = i := by
  simp only [Descriptor.decodeDivacc, reject_if, ne_eq, not_not, Except.ok.injEq]

/-- What an accepted STACC says about its fields (R54). -/
theorem Descriptor.decodeStacc_ok {x : Descriptor} {i : Instr} :
    x.decodeStacc = .ok i ↔ x.fmt = 0 ∧ x.len = 0 ∧ x.arg = 0 ∧ .stacc x.addr = i := by
  simp only [Descriptor.decodeStacc, reject_if, ne_eq, not_not, Except.ok.injEq]

end Sys2Proof
end

