-- ==== Sys2Proof/Laws/PerInstr.lean ====
section
/-! SUPPORT. Per-instruction laws over the syntax: every command's descriptor passes every check of spec/30_encoding.md R54. -/

namespace Sys2Proof.Laws.EncodesLegal

/-- The command's encoding is a legal descriptor (R54). -/
def Statement (i : Instr) : Prop := (Descriptor.ofBits (encode i)).wellFormed = true

/-- The law of a command whose fields are legal: encoding loses none of them. -/
theorem of_descriptor {i : Instr} (h : i.descriptor.wellFormed = true) : Statement i := by
  rw [Statement, encode, Descriptor.ofBits_toBits, h]

theorem unpack (f : Format) (addr len : Word) : Statement (.unpack f addr len) := of_descriptor (by cases f <;> rfl)

theorem mask (f : Format) (addr len : Word) : Statement (.mask f addr len) := of_descriptor (by cases f <;> rfl)

theorem shl (f : Format) (addr len : Word) : Statement (.shl f addr len) := of_descriptor (by cases f <;> rfl)

theorem pad (f : Format) (addr len : Word) : Statement (.pad f addr len) := of_descriptor (by cases f <;> rfl)

theorem ldacc (f : Format) (addr len : Word) : Statement (.ldacc f addr len) := of_descriptor (by cases f <;> rfl)

theorem ldaccu (f : Format) (addr len : Word) : Statement (.ldaccu f addr len) := of_descriptor (by cases f <;> rfl)

theorem addacc (addr len : Word) : Statement (.addacc addr len) := of_descriptor rfl

theorem divacc (k : Sample) : Statement (.divacc k) := of_descriptor (by
  have hk : k.toNat < 65536 := k.isLt
  simp [Instr.descriptor, Descriptor.wellFormed, Descriptor.opDefined, Descriptor.rsvZero, Descriptor.fmtFits,
    Descriptor.addrFits, Descriptor.lenFits, Descriptor.argFits]
  omega)

theorem stacc (addr : Word) : Statement (.stacc addr) := of_descriptor rfl

end Sys2Proof.Laws.EncodesLegal
end

