-- ==== Sys2Proof/Laws/Registers.lean ====
section
/-! SUPPORT. The numbers and the names of the seven registers are the same data, both ways (spec/10_state.md R16). -/

namespace Sys2Proof.Machine

@[simp] theorem RegName.ofNumber_number (r : RegName) : RegName.ofNumber r.number = r := by cases r <;> rfl

@[simp] theorem RegName.number_ofNumber (n : Fin 7) : (RegName.ofNumber n).number = n := by
  revert n; decide

/-- All a register read does: the host has the content of the register of that number, and nothing else changes (R43). -/
theorem hostMove_readReg (n : Fin 7) (s : State) :
    hostMove (.readReg n) s = .next { s with hostRead := some (s.readRegister (RegName.ofNumber n)) } := rfl

/-- All a register write does: nothing (R16). -/
theorem hostMove_writeReg (n : Fin 7) (v : Word) (s : State) : hostMove (.writeReg n v) s = .next s := rfl

end Sys2Proof.Machine
end

