-- ==== Sys2Proof/Tests/Slice0.lean ====
section
/-! SUPPORT. The model's own tests. Every expected word, byte and register is copied from spec/95_test_vectors.md or an example in a
numbered rule, named at each test; and a witness for the hypotheses of every statement of the certificates. -/

set_option Elab.async false -- one thread for all tests: each thread of its own costs address space

namespace Sys2Proof.Tests

open Sys2Proof Sys2Proof.Machine

/-! ## Helpers -/

/-- What is asked of the next state, where there is one. -/
def after {β : Type} (o : Host.Outcome State Fault Refusal) (ask : State → β) : Option β :=
  match o with
  | .next t => some (ask t)
  | .fault _ => none
  | .refused _ => none

/-- Bytes written by the host from an address on. -/
def load : Nat → List Byte → State → State
  | _, [], s => s
  | a, b :: bs, s => load (a + 1) bs (s.setFbByte a b)

/-- The bytes of an access. -/
def bytes (a n : Nat) (s : State) : List Byte := (List.range n).map fun j => s.fbByte (a + j)

/-- The first samples. -/
def samples (n : Nat) (s : State) : List Sample := (List.range n).map s.accSample

/-- An open Raw12 session over the given samples. -/
def session (vs : List Sample) (s : State) : State :=
  { s with
    acc := (List.range vs.length).zip vs, accLen := BitVec.ofNat 32 vs.length, accFmt := 0xC, accValid := true }

/-- A byte string repeated. -/
def times (n : Nat) (bs : List Byte) : List Byte := (List.replicate n bs).flatten

/-- STATUS, CAUSE and FINFO. -/
def record (s : State) : Word × BitVec 4 × Word := (s.status, s.cause, s.finfo)

/-- P1's frame, its first group. -/
def p1Bytes : List Byte :=
  [0x9A, 0x69, 0xFF, 0xFF, 0x00, 0x00, 0x3F, 0x00, 0xC0, 0xFF, 0x40, 0x80, 0x34, 0x12, 0xA6, 0xC9]

/-- The state after reset with one more move pending. -/
def withMove (m : HostMove) (s : State) : State := { s with moves := [m] }

/-- A halted state, with the record of P5. -/
def halted : State := State.reset.takeFault .lenMismatch 0x7

/-! ## Well-formedness: each check of R54 refuses a descriptor that fails it alone -/

/-- `UNPACK raw10, 0x100, 32`, R60's example. -/
def legal : Descriptor := { op := 1, fmt := 0xA, rsv := 0, addr := 0x100, len := 32, arg := 0 }

theorem test_wellFormed_accepts : legal.wellFormed = true := by decide

theorem test_wellFormed_op_zero : { legal with op := 0 }.opDefined = false ∧ { legal with op := 0 }.wellFormed = false := by
  decide

theorem test_wellFormed_op_ten :
    { legal with op := 0xA, fmt := 0 }.opDefined = false ∧ { legal with op := 0xA, fmt := 0 }.wellFormed = false := by
  decide

theorem test_wellFormed_rsv : { legal with rsv := 1 }.rsvZero = false ∧ { legal with rsv := 1 }.wellFormed = false := by
  decide

theorem test_wellFormed_fmt_reserved :
    { legal with fmt := 0xB }.fmtFits = false ∧ { legal with fmt := 0xB }.wellFormed = false := by decide

theorem test_wellFormed_fmt_on_addacc :
    { legal with op := 7 }.fmtFits = false ∧ { legal with op := 7 }.wellFormed = false := by decide

theorem test_wellFormed_addr :
    { legal with op := 8, fmt := 0, len := 0 }.addrFits = false ∧
    { legal with op := 8, fmt := 0, len := 0 }.wellFormed = false := by decide

theorem test_wellFormed_len :
    { legal with op := 9, fmt := 0 }.lenFits = false ∧ { legal with op := 9, fmt := 0 }.wellFormed = false := by decide

theorem test_wellFormed_arg : { legal with arg := 1 }.argFits = false ∧ { legal with arg := 1 }.wellFormed = false := by
  decide

theorem test_wellFormed_divisor_high_half :
    { legal with op := 8, fmt := 0, addr := 0, len := 0, arg := 0x10000 }.argFits = false ∧
    { legal with op := 8, fmt := 0, addr := 0, len := 0, arg := 0x10000 }.wellFormed = false := by decide

/-! ## Decoding: the vectors of D8, from bytes laid out as R51 says -/

theorem test_decode_unpack : decode 0x000000000000002000000100000000A1 = .ok (.unpack .raw10 0x100 32) := by rfl
theorem test_decode_mask : decode 0x000000000000001300000021000000C2 = .ok (.mask .raw12 0x21 19) := by rfl
theorem test_decode_shl : decode 0x000000000000001000000000000000A3 = .ok (.shl .raw10 0 16) := by rfl
theorem test_decode_pad : decode 0x000000000000001000000000000000C4 = .ok (.pad .raw12 0 16) := by rfl
theorem test_decode_ldacc : decode 0x000000000000002000000000000000A5 = .ok (.ldacc .raw10 0 32) := by rfl
theorem test_decode_ldaccu : decode 0x000000000000001000000000000000C6 = .ok (.ldaccu .raw12 0 16) := by rfl
theorem test_decode_addacc : decode 0x00000000000000100000001000000007 = .ok (.addacc 0x10 16) := by rfl
theorem test_decode_divacc : decode 0x00000004000000000000000000000008 = .ok (.divacc 4) := by rfl
theorem test_decode_stacc : decode 0x00000000000000000000004000000009 = .ok (.stacc 0x40) := by rfl

theorem test_decode_illegal_op : decode 0 = .error .reservedOpcode ∧
    decode 0x000000000000002000000000000000AA = .error .reservedOpcode := ⟨rfl, rfl⟩
theorem test_decode_illegal_fmt : decode 0x00000000000000200000000000000001 = .error .reservedFormat ∧
    decode 0x000000000000002000000000000000B1 = .error .reservedFormat ∧
    decode 0x000000000000002000000000000000E1 = .error .reservedFormat := ⟨rfl, rfl, rfl⟩
theorem test_decode_illegal_rsv : decode 0x000000000000002000000000000001A1 = .error .reservedBitsSet := by rfl
theorem test_decode_illegal_arg : decode 0x000000010000002000000000000000A1 = .error .argNotZero ∧
    decode 0x00010000000000000000000000000008 = .error .argNotZero := ⟨rfl, rfl⟩
theorem test_decode_illegal_addacc_fmt : decode 0x000000000000001000000010000000A7 = .error .formatNotZero := by rfl
theorem test_decode_illegal_len : decode 0x00000004000000020000000000000008 = .error .lenNotZero ∧
    decode 0x00000000000000020000004000000009 = .error .lenNotZero := ⟨rfl, rfl⟩
theorem test_decode_illegal_addr : decode 0x00000004000000000000000100000008 = .error .addrNotZero := by rfl

/-- R51's byte order: R60's example as 16 bytes, byte 0 first. -/
theorem test_decodeBytes : decodeBytes [0xA1, 0, 0, 0, 0x00, 0x01, 0, 0, 0x20, 0, 0, 0, 0, 0, 0, 0] =
    .ok (.unpack .raw10 0x100 32) := by rfl
theorem test_encodeBytes : encodeBytes (.unpack .raw10 0x100 32) =
    [0xA1, 0, 0, 0, 0x00, 0x01, 0, 0, 0x20, 0, 0, 0, 0, 0, 0, 0] := by decide +kernel
theorem test_decodeBytes_length : decodeBytes [0xA1, 0, 0, 0] = .error .notSixteenBytes := by rfl

theorem test_decodeTableWord :
    decodeTableWord 128 0x00000004000000000000000000000008 = some (.divacc 4) ∧
    decodeTableWord 8 0xA1 = some (.unpack .raw10 0 0) ∧ decodeTableWord 8 0x01 = none := by decide +kernel

/-- No descriptor fits two rows of the opcode table: two rows differ in a bit that both fix (R61). -/
theorem test_opcodeTable_disjoint :
    opcodeTable.Pairwise fun r r' =>
      r.matchBits &&& r.maskBits &&& r'.maskBits ≠ r'.matchBits &&& r.maskBits &&& r'.maskBits := by decide +kernel

theorem test_step_runs_withFetchWord :
    after (step (State.reset.withFetchWord 128 0x00000004000000000000000000000008)) record =
      some (2, 4, 8) := by decide +kernel

/-! ## The commands -/

/-- P1, its first group. -/
theorem test_unpack_p1 : after (execUnpack .raw10 0 16 (load 0 p1Bytes State.reset)) (bytes 0 16) = some
    [0xA6, 0x01, 0xFF, 0x03, 0x00, 0x00, 0x00, 0x00, 0xFF, 0x03, 0x01, 0x02, 0x48, 0x00, 0x26, 0x03] := by decide +kernel

/-- D4, `len = 47` scaled to one group: 16 bytes converted, a tail of 15 with seven whole lanes left alone. -/
theorem test_unpack_tail : after (execUnpack .raw10 0 31 (load 0 (times 31 [0xFF]) State.reset)) (bytes 0 31) =
    some (times 8 [0xFF, 0x03] ++ times 15 [0xFF]) := by decide +kernel

/-- P2: an odd address, one group, a 3-byte tail, a byte untouched on either side. -/
theorem test_mask_p2 :
    after (execMask .raw12 0x21 19 (load 0x20 ([0xEE] ++ times 8 [0x69, 0x9A] ++ [0xFF, 0xFF, 0xFF, 0xEE]) State.reset))
      (bytes 0x20 21) = some ([0xEE] ++ times 8 [0x60, 0x9A] ++ [0xFF, 0xFF, 0xFF, 0xEE]) := by decide +kernel

/-- D2's first lanes of MASK, under `G = 32`. -/
theorem test_mask_g32 :
    after (execMask .raw10 0 32 (load 0 (times 16 [0xA6, 0xC9]) (State.ofConfig ⟨.g32, 256, 64⟩))) (bytes 0 32) =
      some (times 16 [0x80, 0xC9]) := by decide +kernel

/-- D1: `0x03FF`, `0x0400`, `0x0FFF`, `0x1000`, `0x01A6`, `0xC9A6`, `0x8000`, `0xFFC0` under SHL. -/
theorem test_shl_d1 :
    after (execShl .raw10 0 16 (load 0 [0xFF, 0x03, 0x00, 0x04, 0xFF, 0x0F, 0x00, 0x10, 0xA6, 0x01, 0xA6, 0xC9, 0x00, 0x80,
        0xC0, 0xFF] State.reset)) (bytes 0 16) = some
      [0xC0, 0xFF, 0x00, 0x00, 0xC0, 0xFF, 0x00, 0x00, 0x80, 0x69, 0x80, 0x69, 0x00, 0x00, 0x00, 0xF0] := by decide +kernel

/-- P4: PAD of `rawdata = 0xC9A6`, both formats. -/
theorem test_pad_p4 :
    after (execPad .raw10 0 16 (load 0 (times 8 [0xA6, 0x01]) State.reset)) (bytes 0 16) =
      some (times 8 [0x9A, 0x69]) ∧
    after (execPad .raw12 0 16 (load 0 (times 8 [0xA6, 0x09]) State.reset)) (bytes 0 16) =
      some (times 8 [0x69, 0x9A]) := by decide +kernel

/-- P5, command 1, with four lanes. -/
theorem test_ldacc_p5 :
    after (execLdacc .raw10 0 8 (load 0 (times 4 [0x01, 0x00]) State.reset))
      (fun t => (samples 4 t, t.accLen, t.status)) = some ([1, 1, 1, 1], 4, 0xA4) := by decide +kernel

/-- P3, command 1. -/
theorem test_ldaccu_p3 :
    after (execLdaccu .raw12 0 16 (load 0 [0x01, 0x10, 0xFF, 0xFF, 0x00, 0x00, 0x30, 0x00, 0x08, 0x80, 0xCA, 0xAB, 0x10, 0x00,
        0xEF, 0xFF] State.reset)) (fun t => (samples 8 t, t.accLen, t.status)) =
      some ([0x0100, 0x0FFF, 0x0000, 0x0003, 0x0800, 0x0ABC, 0x0001, 0x0FFE], 8, 0xC4) := by decide +kernel

/-- R115: a tail lane enters ACC as it stands. -/
theorem test_ldaccu_tail :
    after (execLdaccu .raw10 0 18 (load 0 (times 9 [0xFF, 0xFF]) State.reset)) (samples 9) =
      some (List.replicate 8 0x03FF ++ [0xFFFF]) := by decide +kernel

/-- D7: no wrap, wrap by one, wrap, max. -/
theorem test_addacc_d7 :
    after (execAddacc 0 8 (session [0x0FFF, 0xFFFF, 0x8000, 0xFFFF]
        (load 0 [0xFF, 0x0F, 0x01, 0x00, 0x00, 0x80, 0xFF, 0xFF] State.reset)))
      (fun t => (samples 4 t, t.status)) = some ([0x1FFE, 0x0000, 0x0000, 0xFFFE], 0xC4) := by decide +kernel

/-- P5, command 2: the lengths differ. -/
theorem test_addacc_length :
    after (execAddacc 0 6 (session [1, 1, 1, 1] State.reset)) (fun t => (samples 4 t, t.accLen, record t)) =
      some ([1, 1, 1, 1], 4, 0xC6, 7, 7) := by decide +kernel

/-- D7: truncation, large, divisor larger; then by one and by the largest. -/
theorem test_divacc_d7 :
    after (execDivacc 2 (session [0x0007, 0xFFFF, 0x0001] State.reset)) (samples 3) = some [0x0003, 0x7FFF, 0x0000] ∧
    after (execDivacc 1 (session [0x1234] State.reset)) (samples 1) = some [0x1234] ∧
    after (execDivacc 0xFFFF (session [0xFFFF] State.reset)) (samples 1) = some [0x0001] := by decide +kernel

/-- D7: divide by zero, ACC unchanged. -/
theorem test_divacc_zero :
    after (execDivacc 0 (session [0x0007] State.reset)) (fun t => (samples 1 t, record t)) =
      some ([0x0007], 0xC6, 8, 8) := by decide +kernel

/-- P3, command 9. -/
theorem test_stacc_p3 :
    after (execStacc 0x40 (session [0x0103, 0x0FFF, 0x0001, 0x0001, 0x0800, 0x0ABD, 0x0001, 0x0FFE] State.reset))
      (fun t => (bytes 0x40 16 t, t.accLen, t.status)) =
      some ([0x03, 0x01, 0xFF, 0x0F, 0x01, 0x00, 0x01, 0x00, 0x00, 0x08, 0xBD, 0x0A, 0x01, 0x00, 0xFE, 0x0F], 0, 0) := by
  decide +kernel

/-- D9: the last byte of FB, and one byte past it. -/
theorem test_stacc_range :
    after (execStacc 0xFE (session [0xABCD] State.reset)) (bytes 0xFE 2) = some [0xCD, 0xAB] ∧
    after (execStacc 0x100 (session [0xABCD] State.reset)) record = some (0xC6, 5, 9) := by decide +kernel

/-! ## Faults (D9) -/

theorem test_faults_range :
    after (execUnpack .raw10 0xF0 32 State.reset) record = some (2, 5, 0xA1) ∧
    after (execUnpack .raw10 0x100 0 State.reset) record = some (0, 0, 0) ∧
    after (execUnpack .raw10 0x101 0 State.reset) record = some (2, 5, 0xA1) := by decide +kernel

theorem test_faults_ldacc :
    after (execLdacc .raw10 1 32 State.reset) record = some (2, 2, 0xA5) ∧
    after (execLdacc .raw10 0 31 State.reset) record = some (2, 3, 0xA5) ∧
    after (execLdacc .raw10 1 31 State.reset) record = some (2, 2, 0xA5) ∧
    after (execLdacc .raw10 0 130 State.reset) record = some (2, 6, 0xA5) ∧
    after (execLdacc .raw10 0xC0 130 State.reset) record = some (2, 5, 0xA5) := by decide +kernel

theorem test_faults_no_session :
    after (execAddacc 0 32 State.reset) record = some (2, 4, 7) ∧
    after (execDivacc 0 State.reset) record = some (2, 4, 8) ∧
    after (execStacc 0x40 State.reset) record = some (2, 4, 9) := by decide +kernel

/-- P5, command 4: discarded. -/
theorem test_halted_discards :
    after (execStacc 0x40 (session [1] halted)) (fun t => (t.accValid, t.fb, record t)) =
      some (true, [], 0xC6, 7, 7) := by decide +kernel

theorem test_illegal_halts :
    after (step (withMove (.submit 0x000000000000002000000000000001A1) State.reset)) record =
      some (2, 1, 0x1A1) := by decide +kernel

/-- R150: reset in the halted state. -/
theorem test_reset_clears :
    after (step (withMove .reset (session [1] halted))) (fun t => (t.accLen, record t)) = some (0, 0, 0, 0) := by
  decide +kernel

/-- R16: the registers of the reference instance. -/
theorem test_registers :
    State.reset.readRegister .config = 16 ∧ State.reset.readRegister .fbsize = 256 ∧
    State.reset.readRegister .accsize = 64 ∧ halted.readRegister .cause = 7 ∧ halted.readRegister .finfo = 7 := by
  decide +kernel

/-- R16's table, the `no.` column against the name column. -/
theorem test_register_numbers :
    (List.finRange 7).map RegName.ofNumber = [.status, .cause, .finfo, .acclen, .config, .fbsize, .accsize] := by decide

/-- P5's end, as the host reads it: register 1 (CAUSE); and register 5 (FBSIZE) after reset. -/
theorem test_read_by_number :
    after (step (withMove (.readReg 1) halted)) (fun t => t.hostRead) = some (some 7) ∧
    after (step (withMove (.readReg 5) State.reset)) (fun t => t.hostRead) = some (some 256) := by decide +kernel

/-! ## Witnesses: states that meet the hypotheses of each statement -/

/-- `DecodesExactlyTheLegalDescriptors`, both sides of the equivalence. -/
theorem witness_legal_descriptors :
    (Descriptor.ofBits 0x0000FFFF000000000000000000000008).wellFormed = true ∧
    decode 0x0000FFFF000000000000000000000008 = .ok (.divacc 0xFFFF) ∧
    (Descriptor.ofBits 0x00010000000000000000000000000008).wellFormed = false := by decide +kernel

/-- `TableRowSelectsItsCommand`: every row selects a word, and 0 selects none. -/
theorem witness_table_rows :
    (opcodeTable.zip [0x000000000000002000000100000000A1, 0x000000000000001300000021000000C2,
        0x000000000000001000000000000000A3, 0x000000000000001000000000000000C4, 0x000000000000002000000000000000A5,
        0x000000000000001000000000000000C6, 0x00000000000000100000001000000007, 0x00000004000000000000000000000008,
        0x00000000000000000000004000000009]).all (fun p => p.1.selects p.2) = true ∧
    ∀ r ∈ opcodeTable, r.selects 0 = false := by decide +kernel

/-- `StepRunsTheDecodedCommand`, `StepTakesTheFirstMove`. -/
theorem witness_step :
    (withMove (.submit 0x00000004000000000000000000000008) State.reset).moves =
      [.submit 0x00000004000000000000000000000008] ∧
    decode 0x00000004000000000000000000000008 = .ok (.divacc 4) ∧ State.reset.moves = [] := ⟨rfl, rfl, rfl⟩

/-- `IllegalDescriptorHalts`. -/
theorem witness_illegal :
    (withMove (.submit 0) State.reset).NoFault ∧ (withMove (.submit 0) State.reset).moves = [.submit 0] ∧
    (Descriptor.ofBits 0).wellFormed = false := by decide +kernel

/-- The cause a command raises with no lower one (`LowestFaultIsEntered`). -/
def Lowest (s : State) (i : Instr) (c : FaultCause) : Prop :=
  s.NoFault ∧ s.raises c i ∧ ∀ c', s.raises c' i → c.code.toNat ≤ c'.code.toNat

/-- `LowestFaultIsEntered`, `Misaligned`: with every other condition of LDACC holding too (D9). -/
theorem witness_lowest_misaligned : Lowest State.reset (.ldacc .raw10 0xC1 131) .misaligned :=
  ⟨rfl, by show 0xC1 % 2 = 1; rfl, fun c' h => by cases c' <;> first | exact h.elim | decide⟩

theorem witness_lowest_oddLen : Lowest State.reset (.addacc 0 31) .oddLen :=
  ⟨rfl, by show 31 % 2 = 1; rfl, fun c' h => by
    cases c' <;> first | exact h.elim | decide | exact absurd (show 0 % 2 = 1 from h) (by decide)⟩

/-- D9: no session and a zero divisor. -/
theorem witness_lowest_accEmpty : Lowest State.reset (.divacc 0) .accEmpty :=
  ⟨rfl, rfl, fun c' h => by cases c' <;> first | exact h.elim | decide⟩

/-- D9: out of range and over capacity. -/
theorem witness_lowest_range : Lowest State.reset (.ldacc .raw10 0xC0 130) .range :=
  ⟨rfl, ⟨0xC0, 130, rfl, by decide⟩, fun c' h => by
    cases c' <;> first
      | exact h.elim
      | decide
      | exact absurd (show 0xC0 % 2 = 1 from h) (by decide)⟩

/-- D9: 65 samples against 64. -/
theorem witness_lowest_capacity : Lowest State.reset (.ldacc .raw10 0 130) .capacity :=
  ⟨rfl, by show 64 < 130 / 2; decide, fun c' h => by
    cases c' with
    | range =>
      obtain ⟨a, n, e, hn⟩ := h
      injection e with e; injection e with ea en; subst ea; subst en
      exact absurd hn (by decide)
    | misaligned => exact absurd (show 0 % 2 = 1 from h) (by decide)
    | oddLen => exact absurd (show 130 % 2 = 1 from h) (by decide)
    | _ => first | exact h.elim | decide⟩

/-- P5: 15 samples' length against 16. -/
theorem witness_lowest_lenMismatch : Lowest (session [1, 1] State.reset) (.addacc 0 2) .lenMismatch :=
  ⟨rfl, by show 2 / 2 ≠ 2; decide, fun c' h => by
    cases c' with
    | range =>
      obtain ⟨a, n, e, hn⟩ := h
      injection e with e; injection e with ea en; subst ea; subst en
      exact absurd hn (by decide)
    | misaligned => exact absurd (show 0 % 2 = 1 from h) (by decide)
    | oddLen => exact absurd (show 2 % 2 = 1 from h) (by decide)
    | accEmpty => exact absurd (show true = false from h) (by decide)
    | _ => first | exact h.elim | decide⟩

theorem witness_lowest_divZero : Lowest (session [1] State.reset) (.divacc 0) .divZero :=
  ⟨rfl, rfl, fun c' h => by
    cases c' with
    | accEmpty => exact absurd (show true = false from h) (by decide)
    | range => obtain ⟨a, n, e, _⟩ := h; cases e
    | _ => first | exact h.elim | decide⟩

/-- `HaltedEngineDiscardsDescriptors`, `OnlyResetLeavesTheHaltedState`, `IllegalDescriptorHalts` and the host's moves: a halted
state with each kind of move pending, the FB addresses at their bound. -/
theorem witness_halted :
    halted.fault = true ∧ (withMove (.submit 0) halted).moves = [.submit 0] ∧
    (withMove (.readReg 2) halted).moves = [.readReg 2] ∧
    (withMove (.readFb 255) halted).moves = [.readFb 255] ∧ 255 < halted.cfg.fbBytes ∧
    (withMove (.writeFb 255 0xAA) halted).moves = [.writeFb 255 0xAA] ∧
    (after (step (withMove (.submit 0) halted)) fun t => t.fault) = some true ∧
    (withMove (.submit 0) halted).moves.head? ≠ some .reset := by decide +kernel

/-- `HostReadsTheRegisters`, `HostAccessesFb`, `ResetLeavesTheTablesValues`, `ModelStopsOnlyOnAbsentFbBytes`: the last byte, and
the first address that does not exist. -/
theorem witness_host_moves :
    (withMove (.readReg 0) State.reset).moves = [.readReg 0] ∧ (withMove (.readReg 6) State.reset).moves = [.readReg 6] ∧
    (withMove (.writeReg 6 1) State.reset).moves = [.writeReg 6 1] ∧
    (withMove (.readFb 255) State.reset).moves = [.readFb 255] ∧ 255 < State.reset.cfg.fbBytes ∧
    (withMove (.writeFb 256 0) State.reset).moves = [.writeFb 256 0] ∧ State.reset.cfg.fbBytes ≤ 256 ∧
    step (withMove (.writeFb 256 0) State.reset) = .fault (.noSuchFbByte 256) ∧
    step (withMove (.readFb 256) State.reset) = .fault (.noSuchFbByte 256) ∧
    (withMove .reset halted).moves = [.reset] :=
  ⟨rfl, rfl, rfl, rfl, by decide, rfl, by decide, rfl, rfl, rfl⟩

/-- `LaunchPremisesHoldAfterReset`: an instance, and a state that a reset leaves. -/
theorem witness_launch : State.reset = State.ofConfig Config.reference ∧ ∃ u : State, halted.applyReset = u.applyReset :=
  ⟨rfl, halted, rfl⟩

/-- `UnpackedLaneIsTheShiftedLane`, `LaneFunctionsInvertEachOther`: the largest sample, and the first bit above it. -/
theorem witness_lanes :
    (0x03FF#16).toNat ≤ (rightMask16 .raw10).toNat ∧ (0x0FFF#16).toNat ≤ (rightMask16 .raw12).toNat ∧
    sampleBits .raw10 ≤ 10 ∧ sampleBits .raw12 ≤ 12 := by decide

/-- `LittleEndianAccess`, `GroupAndItsLanesAreTheSameData`: the largest value, the last byte, the bytes next to it, the last
lane of either group. -/
theorem witness_access :
    0xFFFF < 256 ^ 2 ∧ 1 < 2 ∧ (9 < 10 ∨ 10 + 2 ≤ 9) ∧ (12 < 10 ∨ 10 + 2 ≤ 12) ∧ 7 < 2 ^ 3 ∧ 15 < 2 ^ 4 := by decide

/-- The result statements of the four transforms and their views by byte: an odd address, a length that ends exactly at
`FB_BYTES` with a tail, the last lane of the last whole group, the bytes at either edge of it. -/
theorem witness_transforms :
    State.reset.NoFault ∧ (237#32).toNat + (19#32).toNat ≤ State.reset.cfg.fbBytes ∧ 7 < State.reset.wholeLanes 19 ∧
    (236 < (237#32).toNat ∨ (237#32).toNat + State.reset.wholeBytes 19 ≤ 236) ∧
    (253 < (237#32).toNat ∨ (237#32).toNat + State.reset.wholeBytes 19 ≤ 253) ∧
    (∀ x : Transform, ∀ f : Format, (after (exec (x.instr f 237 19) State.reset) fun _ => true) = some true) :=
  ⟨rfl, by decide, by decide, by decide, by decide, fun x f => by cases x <;> cases f <;> rfl⟩

/-- `TransformFrame`: an accepted, a faulting and a discarded one. -/
theorem witness_transform_frame (x : Transform) (f : Format) :
    (∃ t, exec (x.instr f 240 16) State.reset = .next t) ∧ (∃ t, exec (x.instr f 241 16) State.reset = .next t) ∧
    exec (x.instr f 240 16) halted = .next halted := by
  cases x <;> exact ⟨⟨_, rfl⟩, ⟨_, rfl⟩, rfl⟩

/-- `GroupsAreIndependent`: two states that agree on group 1 and differ in group 0 and in the tail. -/
theorem witness_groups_independent (x : Transform) (f : Format) :
    let s := load 0 (times 33 [0x11]) State.reset
    let s' := load 0 (times 16 [0x22] ++ times 16 [0x11] ++ [0x33]) State.reset
    s.NoFault ∧ s'.NoFault ∧ s.cfg = s'.cfg ∧ (0#32).toNat + (33#32).toNat ≤ s.cfg.fbBytes ∧
    1 < (33#32).toNat / groupBytes s.cfg ∧
    (∀ j, j < groupBytes s.cfg → s.fbByte ((0#32).toNat + groupBytes s.cfg * 1 + j) =
      s'.fbByte ((0#32).toNat + groupBytes s.cfg * 1 + j)) ∧
    (∃ t, exec (x.instr f 0 33) s = .next t) ∧ ∃ t, exec (x.instr f 0 33) s' = .next t := by
  refine ⟨rfl, rfl, rfl, by decide, by decide, by decide +kernel, ?_, ?_⟩ <;> cases x <;> exact ⟨_, rfl⟩

/-- `KernelWidthsAgree`: D5's length, where the two differ, and a multiple of 32, where they do not. -/
theorem witness_kernel_widths (x : Transform) (f : Format) :
    State.reset.cfg.group = .g16 ∧ (64#32).toNat % 32 = 0 ∧
    (∃ t, exec (x.instr f 0 48) State.reset = .next t) ∧
    (∃ t, exec (x.instr f 0 48) { State.reset with cfg := { State.reset.cfg with group := .g32 } } = .next t) ∧
    ¬ (0 + 32 * (48 / 32) ≤ 31 ∧ 31 < 0 + 16 * (48 / 16)) ∧ ¬ (0 + 32 * (48 / 32) ≤ 48 ∧ 48 < 0 + 16 * (48 / 16)) := by
  refine ⟨rfl, rfl, ?_, ?_, by decide, by decide⟩ <;> cases x <;> exact ⟨_, rfl⟩

/-- `MaskBeforeUnpackChangesNothing`, `TransformsComposeAsTheirLanes`: the commands follow one another. -/
theorem witness_compositions (x y : Transform) (f : Format) :
    ∃ p t, exec (x.instr f 1 17) State.reset = .next p ∧ exec (y.instr f 1 17) p = .next t := by
  cases x <;> cases y <;> exact ⟨_, _, rfl, rfl⟩

/-- The loads: an empty one, one that ends at `FB_BYTES`, one that fills ACC, over an open session too. -/
theorem witness_loads :
    State.reset.NoFault ∧ (session [1] State.reset).NoFault ∧ (128#32).toNat % 2 = 0 ∧
    (128#32).toNat + (128#32).toNat ≤ State.reset.cfg.fbBytes ∧ (128#32).toNat / 2 ≤ State.reset.cfg.accWords ∧
    (256#32).toNat + (0#32).toNat ≤ State.reset.cfg.fbBytes ∧ 63 < State.reset.wholeLanes 128 ∧
    ¬ 8 < State.reset.wholeLanes 18 ∧ 8 < (18#32).toNat / 2 := by decide +kernel

/-- ADDACC, DIVACC and STACC accepted: an open session of two samples, the region ending at `FB_BYTES`. -/
theorem witness_session :
    (session [1, 2] State.reset).NoFault ∧ (session [1, 2] State.reset).accValid = true ∧
    (252#32).toNat % 2 = 0 ∧ (4#32).toNat % 2 = 0 ∧
    (252#32).toNat + (4#32).toNat ≤ (session [1, 2] State.reset).cfg.fbBytes ∧
    (4#32).toNat / 2 = (session [1, 2] State.reset).accLen.toNat ∧
    (252#32).toNat + 2 * (session [1, 2] State.reset).accLen.toNat ≤ (session [1, 2] State.reset).cfg.fbBytes ∧
    1 < (session [1, 2] State.reset).accLen.toNat ∧ (1#16) ≠ 0 := by decide +kernel

/-- `AccumulatorWriteFrame`, `StaccFrame`, `FormatTagIsNeverRead`: each accumulator command answers a next state, accepted, faulting
and discarded. -/
theorem witness_accumulator_frames (f : Format) :
    (∃ t, exec (.ldacc f 0 4) (session [1, 2] State.reset) = .next t) ∧
    (∃ t, exec (.ldaccu f 0 4) (session [1, 2] State.reset) = .next t) ∧
    (∃ t, exec (.addacc 0 4) (session [1, 2] State.reset) = .next t) ∧
    (∃ t, exec (.divacc 2) (session [1, 2] State.reset) = .next t) ∧
    (∃ t, exec (.stacc 0) (session [1, 2] State.reset) = .next t) ∧
    (∃ t, exec (.stacc 0) State.reset = .next t) ∧ exec (.stacc 0) halted = .next halted :=
  ⟨⟨_, rfl⟩, ⟨_, rfl⟩, ⟨_, rfl⟩, ⟨_, rfl⟩, ⟨_, rfl⟩, ⟨_, rfl⟩, rfl⟩

/-- `LdaccuIsUnpackThenLdacc`: one whole group and a tail lane. -/
theorem witness_ldaccu_refines (f : Format) :
    State.reset.NoFault ∧ (0#32).toNat % 2 = 0 ∧ (18#32).toNat % 2 = 0 ∧
    (0#32).toNat + (18#32).toNat ≤ State.reset.cfg.fbBytes ∧ (18#32).toNat / 2 ≤ State.reset.cfg.accWords ∧
    (∃ t, exec (.ldaccu f 0 18) State.reset = .next t) ∧
    ∃ p q, exec (.unpack f 0 18) State.reset = .next p ∧ exec (.ldacc f 0 18) p = .next q :=
  ⟨rfl, rfl, rfl, by decide, by decide, ⟨_, rfl⟩, _, _, rfl, rfl⟩

/-- `SamplesOutsideTheSessionAreUnobservable`: two states that differ in the sample after the session, with STACC pending; and with an
absent FB byte addressed. -/
theorem witness_unobservable :
    let s := withMove (.submit (encode (.stacc 0))) (session [1] State.reset)
    let s' := { s with acc := [(0, 1), (1, 7)] }
    { s' with acc := s.acc } = s ∧ s ≠ s' ∧ s.accValid = true ∧
    (∀ i, i < s.accLen.toNat → s.accSample i = s'.accSample i) ∧ (∃ t, step s = .next t) ∧
    step { s with moves := [.readFb 256] } = .fault (.noSuchFbByte 256) := by
  refine ⟨rfl, by decide +kernel, rfl, ?_, ⟨_, rfl⟩, rfl⟩
  intro i hi
  have h1 : i < 1 := hi
  obtain rfl : i = 0 := by omega
  rfl

/-- `OnlyAccumulatorCommandsChangeSamples`: DIVACC changes a sample. -/
theorem witness_sample_changes :
    (after (step (withMove (.submit (encode (.divacc 2))) (session [7] State.reset))) fun t => t.accSample 0) = some 3 ∧
    (session [7] State.reset).accSample 0 = 7 := by decide +kernel

/-- `OnlyTransformsStaccAndTheHostChangeFb`: STACC and the host each change a byte. -/
theorem witness_fb_changes :
    (after (step (withMove (.submit (encode (.stacc 0))) (session [7] (load 0 [1, 1] State.reset)))) (bytes 0 2)) =
      some [7, 0] ∧
    (after (step (withMove (.writeFb 0 9) (load 0 [1, 1] State.reset))) (bytes 0 2)) = some [9, 1] := by decide +kernel

/-- S7 with two frames of one lane of 1: the state `AverageOfEqualFrames` starts from. -/
def averaging : State :=
  { load 0 [0x01, 0x00] State.reset with
    moves := [.submit (encode (.ldacc .raw10 0 2)), .submit (encode (.addacc 0 2)), .submit (encode (.divacc 2)),
      .submit (encode (.stacc 254))] }

/-- `AverageOfEqualFrames`. -/
theorem witness_average :
    averaging.NoFault ∧ (0#32).toNat % 2 = 0 ∧ (2#32).toNat % 2 = 0 ∧ (254#32).toNat % 2 = 0 ∧
    (0#32).toNat + (2#32).toNat ≤ averaging.cfg.fbBytes ∧ (254#32).toNat + (2#32).toNat ≤ averaging.cfg.fbBytes ∧
    (2#32).toNat / 2 ≤ averaging.cfg.accWords ∧
    (∀ i, i < (2#32).toNat / 2 → averaging.lane ((0#32).toNat + 2 * i) = 1) ∧
    1 ≤ (2#16).toNat ∧ (2#16).toNat * (1#16).toNat < 2 ^ 16 ∧
    averaging.moves = .submit (encode (.ldacc .raw10 0 2)) ::
      (List.replicate ((2#16).toNat - 1) (.submit (encode (.addacc 0 2))) ++
        [.submit (encode (.divacc 2)), .submit (encode (.stacc 254))]) := by decide +kernel

/-- S7 as a run of four commands. -/
theorem test_average :
    after (Host.Core.run Sys2Proof.core 4 averaging) (fun t => (bytes 254 2 t, t.fault)) = some ([0x01, 0x00], false) := by
  decide +kernel

/-- `ParametersNeverChange`, `StepKeepsTheControlInvariants`, `StepKeepsTheInvariant`: a state with written bytes and commands
pending meets the whole invariant and steps. -/
theorem witness_invariant :
    averaging.Inv ∧ ∃ t, step averaging = .next t := by
  have control : averaging.ControlInv :=
    { legal := by decide
      lenFits := by decide
      closed := fun _ => ⟨rfl, rfl⟩
      opened := fun h => absurd h (by decide)
      noFault := fun _ => ⟨rfl, rfl⟩
      faulted := fun h => absurd h (by decide) }
  refine ⟨⟨control, ⟨by decide, by decide, ?_, ?_, fun h => absurd h (by decide)⟩⟩, _, rfl⟩
  · intro a ha
    by_contra hc
    have h0 : ¬ a = 0 := by rintro rfl; exact hc (by decide)
    have h1 : ¬ a = 1 := by rintro rfl; exact hc (by decide)
    have : Memory.find averaging.fb a = none := by
      show Memory.find [(0, 1), (1, 0)] a = none
      simp [Memory.find, Ne.symm h0, Ne.symm h1]
    rw [State.Written, this] at ha
    cases ha
  · intro i hi
    cases hi

/-- `InvariantHoldsAfterReset`: the reference instance is legal, and so is the largest. -/
theorem witness_legal_instances :
    Config.reference.Legal ∧ (⟨.g32, 2 ^ 32 - 1, 2 ^ 31⟩ : Config).Legal := by decide

end Sys2Proof.Tests
end

section
/-! PROOFS. The invariants of the control state (spec/00_scope.md R6, R105; spec/10_state.md R22). A step changes the control
state in four ways only: fault entry, opening a session, closing it, and reset. What these four keep, every step keeps. -/

namespace Sys2Proof.Machine

/-! ## The control state -/

/-- The parameters and the control state alone: the memories and the model's own fields are blanked. -/
def State.control (s : State) : State := { s with fb := [], acc := [], moves := [], hostRead := none, resets := 0 }

theorem State.SameExceptFb.control_eq {s t : State} (h : s.SameExceptFb t) : t.control = s.control := by
  have e := congrArg State.control h
  exact e

theorem State.SameExceptSamples.control_eq {s t : State} (h : s.SameExceptSamples t) : t.control = s.control := by
  have e := congrArg State.control h
  exact e

theorem State.ControlInv.of_control_eq {s t : State} (h : s.ControlInv) (e : t.control = s.control) : t.ControlInv := by
  have hs : s.control.ControlInv := ⟨h.legal, h.lenFits, h.closed, h.opened, h.noFault, h.faulted⟩
  have ht : t.control.ControlInv := e ▸ hs
  exact ⟨ht.legal, ht.lenFits, ht.closed, ht.opened, ht.noFault, ht.faulted⟩

/-! ## One induction principle for all steps -/

/-- A property of the parameters and the control state that each of the four changes of a step keeps. A session is opened
only within `ACC_WORDS`, by the check `Capacity` (R113, R115). -/
structure KeptByControlChanges (P : State → Prop) : Prop where
  same         : ∀ {s t : State}, t.control = s.control → P s → P t
  takeFault    : ∀ {s : State} (c : FaultCause) (w : Word), P s → P (s.takeFault c w)
  openSession  : ∀ {s : State} {n : Nat} (f : Format), n ≤ s.cfg.accWords → P s → P (s.openSession n f)
  closeSession : ∀ {s : State}, P s → P s.closeSession
  applyReset   : ∀ {s : State}, P s → P s.applyReset

namespace KeptByControlChanges

variable {P : State → Prop} (kept : KeptByControlChanges P)
include kept

theorem sameExceptFb {s t : State} (h : s.SameExceptFb t) (hs : P s) : P t := kept.same h.control_eq hs

theorem fillAcc {s : State} (n : Nat) (value : Nat → State → Sample) (hs : P s) : P (s.fillAcc n value) :=
  kept.same (s.fillAcc_sameExceptSamples n value).control_eq hs

/-- The effect both loads share: they fill ACC and open the session over what they filled. -/
theorem load {s : State} {n : Nat} (value : Nat → State → Sample) (f : Format) (fits : s.overCapacity n = false)
    (hs : P s) : P ((s.fillAcc (n / 2) value).openSession (n / 2) f) := by
  have cfg : (s.fillAcc (n / 2) value).cfg = s.cfg := (s.fillAcc_sameExceptSamples _ value).fields.1
  have le : n / 2 ≤ s.cfg.accWords := by simpa [State.overCapacity] using fits
  exact kept.openSession f (cfg ▸ le) (kept.fillAcc _ value hs)

theorem effectOf {s : State} {i : Instr} (accepted : firstFault (checksOf i s) = none) (hs : P s) :
    P (Machine.effectOf i s) := by
  cases i with
  | unpack f addr len => exact kept.sameExceptFb (s.mapLanes_sameExceptFb _ _ _) hs
  | mask f addr len => exact kept.sameExceptFb (s.maskGroups_sameExceptFb _ _ _) hs
  | shl f addr len => exact kept.sameExceptFb (s.mapLanes_sameExceptFb _ _ _) hs
  | pad f addr len => exact kept.sameExceptFb (s.mapLanes_sameExceptFb _ _ _) hs
  | ldacc f addr len =>
    exact kept.load _ f (firstFault_eq_none accepted (.capacity, s.overCapacity len.toNat) (by simp [checksOf])) hs
  | ldaccu f addr len =>
    exact kept.load _ f (firstFault_eq_none accepted (.capacity, s.overCapacity len.toNat) (by simp [checksOf])) hs
  | addacc addr len => exact kept.fillAcc _ _ hs
  | divacc k => exact kept.fillAcc _ _ hs
  | stacc addr => exact kept.closeSession (kept.sameExceptFb (s.storeAcc_sameExceptFb _ _) hs)

theorem exec {s t : State} {i : Instr} (h : Machine.exec i s = .next t) (hs : P s) : P t :=
  exec_keeps h hs (fun c _ => kept.takeFault c _ hs) fun accepted _ => kept.effectOf accepted hs

theorem submitDescriptor {s t : State} {d : DescriptorBits} (h : Machine.submitDescriptor d s = .next t) (hs : P s) :
    P t := by
  unfold Machine.submitDescriptor at h
  split at h
  · exact kept.exec h hs
  · exact issue_keeps h hs (fun c _ _ => kept.takeFault c _ hs) fun _ _ => hs

theorem hostMove {s t : State} {m : HostMove} (h : Machine.hostMove m s = .next t) (hs : P s) : P t := by
  cases m with
  | submit d => exact kept.submitDescriptor h hs
  | readReg n => cases h; exact kept.same (s := s) rfl hs
  | writeReg n v => cases h; exact hs
  | readFb a =>
    simp only [Machine.hostMove] at h
    split at h <;> cases h
    exact kept.same (s := s) rfl hs
  | writeFb a b =>
    simp only [Machine.hostMove] at h
    split at h <;> cases h
    exact kept.sameExceptFb (s.setFbByte_sameExceptFb a b) hs
  | reset => cases h; exact kept.applyReset hs

theorem step {s t : State} (h : Machine.step s = .next t) (hs : P s) : P t := by
  unfold Machine.step at h
  split at h
  · cases h; exact hs
  · next m rest _ =>
    have taken : P { s with moves := rest } := kept.same (s := s) rfl hs
    exact kept.hostMove h taken

end KeptByControlChanges

/-! ## The parameters -/

theorem cfg_keptByControlChanges (c : Config) : KeptByControlChanges (fun s => s.cfg = c) where
  same e h := (congrArg State.cfg e).trans h
  takeFault _ _ h := h
  openSession _ _ h := h
  closeSession h := h
  applyReset h := h

/-- Settles O50: none of the four control changes, reset among them, touches the parameters. -/
theorem parametersNeverChange : Obligations.ParametersNeverChange :=
  fun s _ h => (cfg_keptByControlChanges s.cfg).step h rfl

/-! ## The invariants of R22 -/

/-- The two codes `ACC_FMT` takes while a session is open (R55). -/
theorem format_code_cases (f : Format) : f.code = 0xA ∨ f.code = 0xC := by cases f <;> decide

/-- The causes are numbered 1 to 8 (R131). -/
theorem FaultCause.code_bounds (c : FaultCause) : 1 ≤ c.code.toNat ∧ c.code.toNat ≤ 8 := by cases c <;> decide

theorem State.ControlInv.takeFault {s : State} (h : s.ControlInv) (c : FaultCause) (w : Word) :
    (s.takeFault c w).ControlInv where
  legal := h.legal
  lenFits := h.lenFits
  closed := h.closed
  opened := h.opened
  noFault := fun hf => by simp at hf
  faulted := fun _ => c.code_bounds

theorem State.ControlInv.openSession {s : State} (h : s.ControlInv) {n : Nat} (f : Format) (hn : n ≤ s.cfg.accWords) :
    (s.openSession n f).ControlInv where
  legal := h.legal
  lenFits := by
    have lenLe : (BitVec.ofNat 32 n).toNat ≤ n := by rw [BitVec.toNat_ofNat]; exact Nat.mod_le _ _
    exact lenLe.trans hn
  closed := fun hv => by simp at hv
  opened := fun _ => format_code_cases f
  noFault := h.noFault
  faulted := h.faulted

theorem State.ControlInv.closeSession {s : State} (h : s.ControlInv) : s.closeSession.ControlInv where
  legal := h.legal
  lenFits := Nat.zero_le _
  closed := fun _ => ⟨rfl, rfl⟩
  opened := fun hv => by simp at hv
  noFault := h.noFault
  faulted := h.faulted

theorem State.ControlInv.applyReset {s : State} (h : s.ControlInv) : s.applyReset.ControlInv where
  legal := h.legal
  lenFits := Nat.zero_le _
  closed := fun _ => ⟨rfl, rfl⟩
  opened := fun hv => by simp at hv
  noFault := fun _ => ⟨rfl, rfl⟩
  faulted := fun hf => by simp at hf

theorem controlInv_keptByControlChanges : KeptByControlChanges State.ControlInv where
  same e h := h.of_control_eq e
  takeFault c w h := h.takeFault c w
  openSession f hn h := h.openSession f hn
  closeSession h := h.closeSession
  applyReset h := h.applyReset

/-- Settles O51: each of the four control changes keeps R22's invariants, so every step does. -/
theorem stepKeepsTheControlInvariants : Obligations.StepKeepsTheControlInvariants :=
  fun _ _ inv h => controlInv_keptByControlChanges.step h inv

end Sys2Proof.Machine
end

section
/-! PROOFS. What the host reads and writes (spec/10_state.md R12, R16, R17), what one step can do at all
(spec/70_reset_and_hazards.md R164), and what follows for the two memories (R14, R15, R19, R22). -/

namespace Sys2Proof.Machine

/-! ## Registers -/

/-- A 4-bit cause, zero-extended to the width of a register, has 28 zeros above it. -/
theorem setWidth_cause (c : BitVec 4) : c.setWidth 32 = 0#28 ++ c := by revert c; decide

theorem step_of_moves {s : State} {m : HostMove} {rest : List HostMove} (h : s.moves = m :: rest) :
    step s = hostMove m { s with moves := rest } := by simp [step, h]

/-- Settles O12: R16's table, row by row. -/
theorem hostReadsTheRegisters : Obligations.HostReadsTheRegisters := by
  refine ⟨fun s rest n h => ?_, fun s rest n v h => ?_⟩
  · rw [step_of_moves h, hostMove_readReg]
    match n with
    | 0 | 2 | 3 | 4 | 5 | 6 => rfl
    | 1 => rw [← setWidth_cause s.cause]; rfl
  · rw [step_of_moves h, hostMove_writeReg]

theorem getLsbD_bit (b : Bool) : (bit b).getLsbD 0 = b := by cases b <;> rfl

/-- Settles O13: each field is one segment of the concatenation that defines `STATUS`. -/
theorem statusFields : Obligations.StatusFields := by
  intro s
  obtain ⟨busy, fault, valid, reserved⟩ : s.status.getLsbD 0 = false ∧ s.status.getLsbD 1 = s.fault ∧
      s.status.getLsbD 2 = s.accValid ∧ s.status.getLsbD 3 = false := by
    simp only [State.status, BitVec.getLsbD_append]
    exact ⟨rfl, getLsbD_bit _, getLsbD_bit _, rfl⟩
  have fmt : s.status.extractLsb' 4 4 = s.accFmt := by
    rw [State.status, BitVec.extractLsb'_append_eq_of_add_le (by decide), BitVec.extractLsb'_append_eq_left]
  have high : s.status.extractLsb' 8 24 = 0 := by rw [State.status, BitVec.extractLsb'_append_eq_left]; rfl
  exact ⟨busy, fault, valid, reserved, fmt, high⟩

/-! ## FB accesses -/

theorem hostMove_readFb {s : State} {a : Nat} (h : a < s.cfg.fbBytes) :
    hostMove (.readFb a) s = .next { s with hostRead := some ((s.fbByte a).setWidth 32) } := if_pos h

theorem hostMove_writeFb {s : State} {a : Nat} (b : Byte) (h : a < s.cfg.fbBytes) :
    hostMove (.writeFb a b) s = .next (s.setFbByte a b) := if_pos h

theorem hostMove_readFb_absent {s : State} {a : Nat} (h : s.cfg.fbBytes ≤ a) :
    hostMove (.readFb a) s = .fault (.noSuchFbByte a) := if_neg (Nat.not_lt.mpr h)

theorem hostMove_writeFb_absent {s : State} {a : Nat} (b : Byte) (h : s.cfg.fbBytes ≤ a) :
    hostMove (.writeFb a b) s = .fault (.noSuchFbByte a) := if_neg (Nat.not_lt.mpr h)

/-- Settles O14: the four cases are the two accesses to a present byte and the two to an absent one. -/
theorem hostAccessesFb : Obligations.HostAccessesFb := by
  refine ⟨fun s rest a b h => ⟨fun ha => ?_, fun ha => ?_⟩, fun s rest a h => ⟨fun ha => ?_, fun ha => ?_⟩⟩ <;>
    rw [step_of_moves h]
  · refine ⟨_, hostMove_writeFb b ha, State.fbByte_setFbByte_same _ a b, fun c hc => ?_,
      State.setFbByte_sameExceptFb _ a b⟩
    rw [State.fbByte_setFbByte, if_neg hc]
    rfl
  · exact hostMove_writeFb_absent b ha
  · exact hostMove_readFb ha
  · exact hostMove_readFb_absent ha

/-! ## What one step can do -/

/-- Every state that a host move taken in `s` can answer (R164): the outcomes of a submitted descriptor (R54, R133,
R134), the answers to the host's reads and writes, and the reset. -/
inductive MoveLeaves (s : State) : HostMove → State → Prop where
  | ran {d : DescriptorBits} {i : Instr} (decoded : decode d = .ok i) (accepted : firstFault (checksOf i s) = none) :
      MoveLeaves s (.submit d) (effectOf i s)
  | faulted (d : DescriptorBits) (c : FaultCause) (info : Word) : MoveLeaves s (.submit d) (s.takeFault c info)
  | discarded (d : DescriptorBits) : MoveLeaves s (.submit d) s
  | registerRead (n : Fin 7) :
      MoveLeaves s (.readReg n) { s with hostRead := some (s.readRegister (RegName.ofNumber n)) }
  | registerWrite (n : Fin 7) (v : Word) : MoveLeaves s (.writeReg n v) s
  | byteRead {a : Nat} (present : a < s.cfg.fbBytes) :
      MoveLeaves s (.readFb a) { s with hostRead := some ((s.fbByte a).setWidth 32) }
  | byteWrite {a : Nat} (b : Byte) (present : a < s.cfg.fbBytes) : MoveLeaves s (.writeFb a b) (s.setFbByte a b)
  | reset : MoveLeaves s .reset s.applyReset

theorem issue_completes (info : Word) (checks : List (FaultCause × Bool)) (effect : State → State) (s : State) :
    ∃ t, issue info checks effect s = .next t := by
  rcases issue_cases info checks effect s with ⟨_, e⟩ | ⟨_, _, _, e⟩ | ⟨_, _, e⟩ <;> exact ⟨_, e⟩

/-- A descriptor always completes: run, faulted or discarded (R141). -/
theorem submitDescriptor_completes (d : DescriptorBits) (s : State) :
    ∃ t, submitDescriptor d s = .next t ∧ MoveLeaves s (.submit d) t := by
  unfold submitDescriptor
  split
  · next i decoded =>
    obtain ⟨t, e⟩ := issue_completes (finfoOf i) (checksOf i s) (effectOf i) s
    rw [← exec_eq_issue] at e
    exact ⟨t, e, exec_keeps e (.discarded d) (fun c _ => .faulted d c _) fun accepted _ => .ran decoded accepted⟩
  · obtain ⟨t, e⟩ := issue_completes (firstWord d) [(.illegal, true)] (fun t => t) s
    exact ⟨t, e, issue_keeps e (.discarded d) (fun c _ _ => .faulted d c _) fun _ _ => .discarded d⟩

/-- Everything a host move can do: it answers a next state, or it addresses an absent FB byte (log entry 9). -/
theorem hostMove_cases (m : HostMove) (s : State) :
    (∃ t, hostMove m s = .next t ∧ MoveLeaves s m t) ∨
    ∃ a, s.cfg.fbBytes ≤ a ∧ (m = .readFb a ∨ ∃ b, m = .writeFb a b) ∧ hostMove m s = .fault (.noSuchFbByte a) := by
  cases m with
  | submit d => exact .inl (submitDescriptor_completes d s)
  | readReg n => exact .inl ⟨_, rfl, .registerRead n⟩
  | writeReg n v => exact .inl ⟨_, rfl, .registerWrite n v⟩
  | readFb a =>
    rcases Nat.lt_or_ge a s.cfg.fbBytes with h | h
    · exact .inl ⟨_, hostMove_readFb h, .byteRead h⟩
    · exact .inr ⟨a, h, .inl rfl, hostMove_readFb_absent h⟩
  | writeFb a b =>
    rcases Nat.lt_or_ge a s.cfg.fbBytes with h | h
    · exact .inl ⟨_, hostMove_writeFb b h, .byteWrite b h⟩
    · exact .inr ⟨a, h, .inr ⟨b, rfl⟩, hostMove_writeFb_absent b h⟩
  | reset => exact .inl ⟨_, rfl, .reset⟩

theorem hostMove_next {m : HostMove} {s t : State} (h : hostMove m s = .next t) : MoveLeaves s m t := by
  rcases hostMove_cases m s with ⟨u, e, leaves⟩ | ⟨_, _, _, e⟩ <;> rw [e] at h <;> cases h
  exact leaves

/-- Everything a completed step can do (R42): nothing, or what the first pending move does. -/
theorem step_next {s t : State} (h : step s = .next t) :
    t = s ∨ ∃ m rest, s.moves = m :: rest ∧ MoveLeaves { s with moves := rest } m t := by
  cases hm : s.moves with
  | nil => simp only [step, hm] at h; cases h; exact .inl rfl
  | cons m rest => exact .inr ⟨m, rest, rfl, hostMove_next (step_of_moves hm ▸ h)⟩

/-- A step that answers no next state is an access to an absent FB byte. -/
theorem step_stops {s : State} (h : ∀ t, step s ≠ .next t) :
    ∃ a rest, step s = .fault (.noSuchFbByte a) ∧ s.cfg.fbBytes ≤ a ∧
      (s.moves = .readFb a :: rest ∨ ∃ b, s.moves = .writeFb a b :: rest) := by
  cases hm : s.moves with
  | nil => exact absurd (by simp [step, hm]) (h s)
  | cons m rest =>
    rw [step_of_moves hm] at h ⊢
    rcases hostMove_cases m { s with moves := rest } with ⟨t, e, _⟩ | ⟨a, absent, rfl | ⟨b, rfl⟩, e⟩
    · exact absurd e (h t)
    · exact ⟨a, rest, e, absent, .inl rfl⟩
    · exact ⟨a, rest, e, absent, .inr ⟨b, rfl⟩⟩

/-- Settles O18: of all host moves only an access to an absent byte answers no next state. -/
theorem modelStopsOnlyOnAbsentFbBytes : Obligations.ModelStopsOnlyOnAbsentFbBytes := by
  refine fun s => ⟨fun r hr => ?_, fun r hr => ?_⟩
  · obtain ⟨a, rest, e, _⟩ := step_stops (s := s) (by simp [hr])
    rw [hr] at e
    cases e
  · obtain ⟨a, rest, e, absent, moves⟩ := step_stops (s := s) (by simp [hr])
    rw [hr] at e
    cases e
    exact ⟨a, rest, rfl, absent, moves⟩

/-! ## What changes a sample, and what changes a byte -/

/-- The commands that write ACC (R15). -/
def WritesAcc (i : Instr) : Prop :=
  (∃ f addr len, i = .ldacc f addr len) ∨ (∃ f addr len, i = .ldaccu f addr len) ∨
    (∃ addr len, i = .addacc addr len) ∨ ∃ k, i = .divacc k

/-- The commands that write FB (R12). -/
def WritesFb (i : Instr) : Prop :=
  (∃ x f addr len, i = Transform.instr x f addr len) ∨ ∃ addr, i = .stacc addr

theorem effectOf_writesAcc_or_keeps_samples (i : Instr) (s : State) :
    WritesAcc i ∨ ∀ j, (effectOf i s).accSample j = s.accSample j := by
  have fbOnly : ∀ {t : State}, s.SameExceptFb t → ∀ j, t.accSample j = s.accSample j := fun same =>
    State.accSample_congr (by simp [same.fields]) (by simp [same.fields])
  cases i with
  | unpack f addr len => exact .inr (fbOnly (s.mapLanes_sameExceptFb _ _ _))
  | mask f addr len => exact .inr (fbOnly (s.maskGroups_sameExceptFb _ _ _))
  | shl f addr len => exact .inr (fbOnly (s.mapLanes_sameExceptFb _ _ _))
  | pad f addr len => exact .inr (fbOnly (s.mapLanes_sameExceptFb _ _ _))
  | ldacc f addr len => exact .inl (.inl ⟨f, addr, len, rfl⟩)
  | ldaccu f addr len => exact .inl (.inr (.inl ⟨f, addr, len, rfl⟩))
  | addacc addr len => exact .inl (.inr (.inr (.inl ⟨addr, len, rfl⟩)))
  | divacc k => exact .inl (.inr (.inr (.inr ⟨k, rfl⟩)))
  | stacc addr =>
    have stored := fbOnly (s.storeAcc_sameExceptFb addr.toNat s.accLen.toNat)
    exact .inr stored

theorem effectOf_writesFb_or_keeps_bytes (i : Instr) (s : State) :
    WritesFb i ∨ ∀ a, (effectOf i s).fbByte a = s.fbByte a := by
  have filled : ∀ n value a, (s.fillAcc n value).fbByte a = s.fbByte a := fun n value =>
    have kept := (s.fillAcc_sameExceptSamples n value).fields
    State.fbByte_congr (by simp [kept]) (by simp [kept])
  cases i with
  | unpack f addr len => exact .inl (.inl ⟨.unpack, f, addr, len, rfl⟩)
  | mask f addr len => exact .inl (.inl ⟨.mask, f, addr, len, rfl⟩)
  | shl f addr len => exact .inl (.inl ⟨.shl, f, addr, len, rfl⟩)
  | pad f addr len => exact .inl (.inl ⟨.pad, f, addr, len, rfl⟩)
  | ldacc f addr len => exact .inr (filled _ _)
  | ldaccu f addr len => exact .inr (filled _ _)
  | addacc addr len => exact .inr (filled _ _)
  | divacc k => exact .inr (filled _ _)
  | stacc addr => exact .inl (.inr ⟨addr, rfl⟩)

/-- Settles O47: of the ways a move leaves a state, only the reset and the effect of a command that writes ACC leave
another sample. -/
theorem onlyAccumulatorCommandsChangeSamples : Obligations.OnlyAccumulatorCommandsChangeSamples := by
  intro s t j h changed
  rcases step_next h with rfl | ⟨m, rest, hm, leaves⟩
  · exact absurd rfl changed
  rw [hm]
  cases leaves with
  | @ran d i decoded _ =>
    rcases effectOf_writesAcc_or_keeps_samples i { s with moves := rest } with writes | kept
    · refine .inr ⟨d, rest, rfl, ?_⟩
      rw [decoded]
      simpa [WritesAcc] using writes
    · exact absurd (kept j) changed
  | reset => exact .inl rfl
  | faulted | discarded | registerRead | registerWrite | byteRead | byteWrite => exact absurd rfl changed

/-- Settles O48: of the ways a move leaves a state, only the reset, the host's write of that byte and the effect of a
command that writes FB leave another byte. -/
theorem onlyTransformsStaccAndTheHostChangeFb : Obligations.OnlyTransformsStaccAndTheHostChangeFb := by
  intro s t a h changed
  rcases step_next h with rfl | ⟨m, rest, hm, leaves⟩
  · exact absurd rfl changed
  rw [hm]
  cases leaves with
  | @ran d i decoded _ =>
    rcases effectOf_writesFb_or_keeps_bytes i { s with moves := rest } with writes | kept
    · refine .inr (.inr ⟨d, rest, rfl, ?_⟩)
      rw [decoded]
      simpa [WritesFb] using writes
    · exact absurd (kept a) changed
  | @byteWrite c b _ =>
    rw [State.fbByte_setFbByte] at changed
    split at changed
    · next same => exact .inr (.inl ⟨b, by rw [same]; rfl⟩)
    · exact absurd rfl changed
  | reset => exact .inl rfl
  | faulted | discarded | registerRead | registerWrite | byteRead => exact absurd rfl changed

end Sys2Proof.Machine
end

section
/-! PROOFS. The whole invariant: reset establishes it and every step keeps it (spec/10_state.md R12, R14, R19, R22). The control
part is kept by the lemmas before; here is the part on the two memories, one lemma per operation. -/

namespace Sys2Proof.Machine

/-! ## Reset -/

theorem State.ofConfig_controlInv {c : Config} (legal : c.Legal) : (State.ofConfig c).ControlInv where
  legal := legal
  lenFits := Nat.zero_le _
  closed := fun _ => ⟨rfl, rfl⟩
  opened := fun hv => by simp at hv
  noFault := fun _ => ⟨rfl, rfl⟩
  faulted := fun hf => by simp at hf

/-- With nothing written and no session open there is nothing to bound. -/
theorem State.MemoryInv.of_empty {s : State} (fb : s.fb = []) (acc : s.acc = []) (closed : s.accValid = false) :
    s.MemoryInv where
  fbWf := fb ▸ Memory.wf_nil
  accWf := acc ▸ Memory.wf_nil
  fbFits := fun a ha => by simp [State.Written, fb] at ha
  accFits := fun i hi => by simp [State.SampleWritten, acc] at hi
  filled := fun hv => by simp [closed] at hv

/-- Settles O53: `State.reset` is the state after reset for one legal choice of the parameters. -/
theorem invariantHoldsAfterReset : Obligations.InvariantHoldsAfterReset := by
  have afterReset : ∀ c : Config, c.Legal → (State.ofConfig c).Inv := fun c legal =>
    ⟨State.ofConfig_controlInv legal, .of_empty rfl rfl rfl⟩
  exact ⟨afterReset, afterReset Config.reference (by decide)⟩

/-! ## What an operation writes -/

theorem State.written_setFbByte {s : State} {a c : Nat} {b : Byte} (h : (s.setFbByte a b).Written c) :
    c = a ∨ s.Written c := by
  rw [State.Written, State.setFbByte_fb, Memory.find_insert] at h
  split at h
  · next same => exact .inl same
  · exact .inr h

theorem State.sampleWritten_setAccSample (s : State) (i j : Nat) (v : Sample) :
    (s.setAccSample i v).SampleWritten j ↔ j = i ∨ s.SampleWritten j := by
  rw [State.SampleWritten, State.setAccSample_acc, Memory.find_insert]
  split <;> simp [*]

/-- Filling ACC writes its first `n` samples and no other. -/
theorem State.sampleWritten_fillAcc (s : State) (n : Nat) (value : Nat → State → Sample) (j : Nat) :
    (s.fillAcc n value).SampleWritten j ↔ j < n ∨ s.SampleWritten j := by
  induction n with
  | zero => simp [State.fillAcc]
  | succ n ih =>
    have last : s.fillAcc (n + 1) value = (s.fillAcc n value).setAccSample n (value n (s.fillAcc n value)) := rfl
    rw [last, State.sampleWritten_setAccSample, ih, ← or_assoc, Nat.lt_succ_iff_lt_or_eq, Or.comm (a := j = n)]

/-- Every written byte lies below `n`. -/
def State.FbBelow (n : Nat) (s : State) : Prop := ∀ a, s.Written a → a < n

theorem forUpto_fbBelow {n k : Nat} {body : Nat → State → State} {s : State} (h : s.FbBelow n)
    (each : ∀ i t, i < k → t.FbBelow n → (body i t).FbBelow n) : (forUpto k body s).FbBelow n :=
  forUpto_induct (P := fun _ t => State.FbBelow n t) k h each

theorem State.FbBelow.setFbByte {n a : Nat} {s : State} (h : s.FbBelow n) (ha : a < n) (b : Byte) :
    (s.setFbByte a b).FbBelow n := fun c hc =>
  (State.written_setFbByte hc).elim (fun same => same ▸ ha) (h c)

theorem State.FbBelow.memWrite {n a k : Nat} {s : State} (h : s.FbBelow n) (fits : a + k ≤ n) (v : Nat) :
    (s.memWrite a k v).FbBelow n :=
  forUpto_fbBelow h fun _ _ hj ht => ht.setFbByte (by omega) _

theorem State.FbBelow.mapLanes {n addr len : Nat} {s : State} (h : s.FbBelow n) (fits : addr + len ≤ n)
    (lane : Sample → Sample) : (s.mapLanes lane addr len).FbBelow n := by
  have whole := wholeGroups_le s.cfg len
  rw [← two_mul_convertedLanes] at whole
  rw [State.mapLanes_flat]
  exact forUpto_fbBelow h fun _ _ hi ht => ht.memWrite (by omega) _

theorem State.FbBelow.maskGroups {n addr len : Nat} {s : State} (h : s.FbBelow n) (fits : addr + len ≤ n)
    (mask : Nat) : (s.maskGroups mask addr len).FbBelow n := by
  refine forUpto_fbBelow h fun g t hg ht => ht.memWrite ?_ _
  have groups : groupBytes s.cfg * (g + 1) ≤ len :=
    (Nat.mul_le_mul_left _ hg).trans (wholeGroups_le s.cfg len)
  rw [Nat.mul_succ] at groups
  omega

theorem State.FbBelow.storeAcc {n addr k : Nat} {s : State} (h : s.FbBelow n) (fits : addr + 2 * k ≤ n) :
    (s.storeAcc addr k).FbBelow n :=
  forUpto_fbBelow h fun _ _ hi ht => ht.memWrite (by omega) _

/-! ## The memory invariant, operation by operation -/

theorem State.MemoryInv.canonical {s : State} (h : s.MemoryInv) : s.Canonical := ⟨h.fbWf, h.accWf⟩

/-- The memory invariant does not speak of the other fields. -/
theorem State.MemoryInv.of_eq {s t : State} (h : s.MemoryInv) (cfg : t.cfg = s.cfg) (fb : t.fb = s.fb)
    (acc : t.acc = s.acc) (len : t.accLen = s.accLen) (valid : t.accValid = s.accValid) : t.MemoryInv where
  fbWf := fb ▸ h.fbWf
  accWf := acc ▸ h.accWf
  fbFits := by simpa only [State.Written, cfg, fb] using h.fbFits
  accFits := by simpa only [State.SampleWritten, cfg, acc] using h.accFits
  filled := by simpa only [State.SampleWritten, valid, len, acc] using h.filled

/-- A change of FB alone keeps the invariant when it keeps the form and the bound. -/
theorem State.MemoryInv.of_sameExceptFb {s t : State} (h : s.MemoryInv) (same : s.SameExceptFb t) (form : t.Canonical)
    (below : t.FbBelow s.cfg.fbBytes) : t.MemoryInv where
  fbWf := form.1
  accWf := form.2
  fbFits := by rw [same.fields.1]; exact below
  accFits := by simpa only [State.SampleWritten, same.fields] using h.accFits
  filled := by simpa only [State.SampleWritten, same.fields] using h.filled

theorem State.MemoryInv.mapLanes {s : State} (h : s.MemoryInv) {addr len : Nat} (fits : addr + len ≤ s.cfg.fbBytes)
    (lane : Sample → Sample) : (s.mapLanes lane addr len).MemoryInv :=
  h.of_sameExceptFb (s.mapLanes_sameExceptFb lane addr len) (State.mapLanes_canonical h.canonical lane addr len)
    (State.FbBelow.mapLanes h.fbFits fits lane)

theorem State.MemoryInv.maskGroups {s : State} (h : s.MemoryInv) {addr len : Nat} (fits : addr + len ≤ s.cfg.fbBytes)
    (mask : Nat) : (s.maskGroups mask addr len).MemoryInv :=
  h.of_sameExceptFb (s.maskGroups_sameExceptFb mask addr len) (State.maskGroups_canonical h.canonical mask addr len)
    (State.FbBelow.maskGroups h.fbFits fits mask)

theorem State.MemoryInv.storeAcc {s : State} (h : s.MemoryInv) {addr n : Nat} (fits : addr + 2 * n ≤ s.cfg.fbBytes) :
    (s.storeAcc addr n).MemoryInv :=
  h.of_sameExceptFb (s.storeAcc_sameExceptFb addr n) (State.storeAcc_canonical h.canonical addr n)
    (State.FbBelow.storeAcc h.fbFits fits)

theorem State.MemoryInv.setFbByte {s : State} (h : s.MemoryInv) {a : Nat} (ha : a < s.cfg.fbBytes) (b : Byte) :
    (s.setFbByte a b).MemoryInv :=
  h.of_sameExceptFb (s.setFbByte_sameExceptFb a b) (State.setFbByte_canonical h.canonical a b)
    (State.FbBelow.setFbByte h.fbFits ha b)

theorem State.MemoryInv.fillAcc {s : State} (h : s.MemoryInv) {n : Nat} (fits : n ≤ s.cfg.accWords)
    (value : Nat → State → Sample) : (s.fillAcc n value).MemoryInv := by
  have kept := (s.fillAcc_sameExceptSamples n value).fields
  have form := State.fillAcc_canonical h.canonical n value
  refine ⟨form.1, form.2, ?_, fun i hi => ?_, fun hv i hi => ?_⟩
  · simpa only [State.Written, kept] using h.fbFits
  · rw [kept.1]
    rcases (s.sampleWritten_fillAcc n value i).mp hi with hlt | old
    · exact hlt.trans_le fits
    · exact h.accFits i old
  · simp only [kept] at hv hi
    exact (s.sampleWritten_fillAcc n value i).mpr (.inr (h.filled hv i hi))

/-- A session is opened over written samples (R113, R115). -/
theorem State.MemoryInv.openSession {s : State} (h : s.MemoryInv) {n : Nat} (written : ∀ i, i < n → s.SampleWritten i)
    (f : Format) : (s.openSession n f).MemoryInv where
  fbWf := h.fbWf
  accWf := h.accWf
  fbFits := h.fbFits
  accFits := h.accFits
  filled := fun _ i hi => by
    rw [State.openSession_accLen, BitVec.toNat_ofNat] at hi
    exact written i (hi.trans_le (Nat.mod_le _ _))

theorem State.MemoryInv.closeSession {s : State} (h : s.MemoryInv) : s.closeSession.MemoryInv where
  fbWf := h.fbWf
  accWf := h.accWf
  fbFits := h.fbFits
  accFits := h.accFits
  filled := fun hv => by simp at hv

/-- The effect both loads share. -/
theorem State.MemoryInv.load {s : State} (h : s.MemoryInv) {n : Nat} (fits : n ≤ s.cfg.accWords)
    (value : Nat → State → Sample) (f : Format) : ((s.fillAcc n value).openSession n f).MemoryInv :=
  (h.fillAcc fits value).openSession (fun i hi => (s.sampleWritten_fillAcc n value i).mpr (.inl hi)) f

/-! ## Commands and steps -/

/-- An accepted command's region lies in FB (R40). -/
theorem region_le_of_accepted {s : State} {i : Instr} (accepted : firstFault (checksOf i s) = none) {addr n : Nat}
    (region : s.region i = some (addr, n)) : addr + n ≤ s.cfg.fbBytes := by
  have checked : (FaultCause.range, s.outOfRange addr n) ∈ checksOf i s := by
    cases i <;> cases region <;> simp [checksOf]
  have inRange := firstFault_eq_none accepted _ checked
  simpa [State.outOfRange] using inRange

/-- An accepted load fits ACC (R113, R115). -/
theorem half_le_of_fits {s : State} {len : Nat} (fits : s.overCapacity len = false) : len / 2 ≤ s.cfg.accWords := by
  simpa [State.overCapacity] using fits

theorem effectOf_memoryInv {s : State} (inv : s.Inv) {i : Instr} (accepted : firstFault (checksOf i s) = none) :
    (effectOf i s).MemoryInv := by
  have h := inv.memory
  cases i with
  | unpack f addr len => exact h.mapLanes (region_le_of_accepted accepted rfl) _
  | mask f addr len => exact h.maskGroups (region_le_of_accepted accepted rfl) _
  | shl f addr len => exact h.mapLanes (region_le_of_accepted accepted rfl) _
  | pad f addr len => exact h.mapLanes (region_le_of_accepted accepted rfl) _
  | ldacc f addr len =>
    have fits := firstFault_eq_none accepted (.capacity, s.overCapacity len.toNat) (by simp [checksOf])
    exact h.load (half_le_of_fits fits) _ f
  | ldaccu f addr len =>
    have fits := firstFault_eq_none accepted (.capacity, s.overCapacity len.toNat) (by simp [checksOf])
    exact h.load (half_le_of_fits fits) _ f
  | addacc addr len => exact h.fillAcc inv.control.lenFits _
  | divacc k => exact h.fillAcc inv.control.lenFits _
  | stacc addr => exact (h.storeAcc (region_le_of_accepted accepted rfl)).closeSession

theorem MoveLeaves.memoryInv {s t : State} {m : HostMove} (leaves : MoveLeaves s m t) (inv : s.Inv) : t.MemoryInv := by
  have h := inv.memory
  cases leaves with
  | ran _ accepted => exact effectOf_memoryInv inv accepted
  | faulted => exact h.of_eq rfl rfl rfl rfl rfl
  | discarded | registerWrite => exact h
  | registerRead | byteRead => exact h.of_eq rfl rfl rfl rfl rfl
  | byteWrite b present => exact h.setFbByte present b
  | reset => exact .of_empty rfl rfl rfl

/-- Settles O52: each way a move leaves a state keeps the invariant on the memories, and the one on the control state is
kept already. -/
theorem stepKeepsTheInvariant : Obligations.StepKeepsTheInvariant := by
  intro s t inv h
  refine ⟨stepKeepsTheControlInvariants s t inv.control h, ?_⟩
  rcases step_next h with rfl | ⟨m, rest, _, leaves⟩
  · exact inv.memory
  · have taken : ({ s with moves := rest } : State).Inv :=
      ⟨inv.control.of_control_eq rfl, inv.memory.of_eq rfl rfl rfl rfl rfl⟩
    exact leaves.memoryInv taken

end Sys2Proof.Machine
end

section
/-! PROOFS. Samples the session does not hold are unobservable (spec/10_state.md R14, R15). Two states are related when they
differ in such samples only; the proof shows that related states make the same step and stay related. -/

namespace Sys2Proof.Machine

/-! ## The relation -/

/-- `s` with other contents of ACC. -/
def State.withAcc (s : State) (acc : Memory Sample) : State := { s with acc := acc }

/-- No register shows a sample (R16). -/
theorem State.readRegister_withAcc (s : State) (acc : Memory Sample) (r : RegName) :
    (s.withAcc acc).readRegister r = s.readRegister r := by cases r <;> rfl

/-- How many samples the session holds: none while it is closed. -/
def State.held (s : State) : Nat := if s.accValid then s.accLen.toNat else 0

/-- `s'` is `s` but for the contents of ACC, and the first `n` samples are the same. -/
structure AgreeBelow (n : Nat) (s s' : State) : Prop where
  same    : s.SameExceptSamples s'
  samples : ∀ i, i < n → s.accSample i = s'.accSample i

/-- The relation of the statement: `s'` is `s` but for samples that the session does not hold. -/
def Indistinguishable (s s' : State) : Prop := AgreeBelow s.held s s'

theorem State.held_of_open {s : State} (h : s.accValid = true) : s.held = s.accLen.toNat := by simp [State.held, h]

theorem State.held_of_closed {s : State} (h : s.accValid = false) : s.held = 0 := by simp [State.held, h]

theorem indistinguishable_iff {s s' : State} :
    Indistinguishable s s' ↔ s.SameExceptSamples s' ∧
      (s.accValid = true → ∀ i, i < s.accLen.toNat → s.accSample i = s'.accSample i) := by
  constructor
  · rintro ⟨same, samples⟩
    exact ⟨same, fun hv i hi => samples i (by rwa [State.held_of_open hv])⟩
  · rintro ⟨same, samples⟩
    refine ⟨same, fun i hi => ?_⟩
    cases hv : s.accValid with
    | true => exact samples hv i (by rwa [State.held_of_open hv] at hi)
    | false => rw [State.held_of_closed hv] at hi; omega

theorem State.SameExceptSamples.exists_acc {s t : State} (h : s.SameExceptSamples t) : ∃ acc, t = s.withAcc acc := by
  exact ⟨t.acc, by rw [← h, State.withAcc]⟩

theorem State.SameExceptSamples.held_eq {s t : State} (h : s.SameExceptSamples t) : t.held = s.held := by
  simp only [State.held, h.fields]

theorem State.SameExceptFb.held_eq {s t : State} (h : s.SameExceptFb t) : t.held = s.held := by
  simp only [State.held, h.fields]

/-- An operation that neither reads nor writes ACC keeps the agreement. -/
theorem AgreeBelow.map {n : Nat} {s s' : State} (h : AgreeBelow n s s') (op : State → State)
    (ignores : ∀ u acc, op (u.withAcc acc) = (op u).withAcc acc)
    (resets : ∀ u, (op u).resets = u.resets) : AgreeBelow n (op s) (op s') := by
  have keeps : ∀ u, (op u).acc = u.acc := fun u => by
    have written := congrArg State.acc (ignores u u.acc)
    exact written
  constructor
  · obtain ⟨acc, rfl⟩ := h.same.exists_acc
    rw [ignores]
    rfl
  · intro i hi
    rw [State.accSample_congr (keeps s) (resets s), State.accSample_congr (keeps s') (resets s')]
    exact h.samples i hi

/-- Loops over agreeing states with agreeing iterations. -/
theorem forUpto_agree {n k : Nat} {body body' : Nat → State → State} {s s' : State} (h : AgreeBelow n s s')
    (each : ∀ i t t', i < k → AgreeBelow n t t' → AgreeBelow n (body i t) (body' i t')) :
    AgreeBelow n (forUpto k body s) (forUpto k body' s') := by
  induction k with
  | zero => exact h
  | succ k ih => exact each k _ _ (Nat.lt_succ_self k) (ih fun i t t' hi => each i t t' (Nat.lt_succ_of_lt hi))

namespace AgreeBelow

variable {n : Nat} {s s' : State} (h : AgreeBelow n s s')
include h

theorem lane_eq (a : Nat) : s'.lane a = s.lane a := lane_own a h.same

theorem setFbByte (a : Nat) (b : Byte) : AgreeBelow n (s.setFbByte a b) (s'.setFbByte a b) :=
  h.map (fun u => u.setFbByte a b) (fun _ _ => rfl) fun _ => rfl

theorem memWrite (a k v : Nat) : AgreeBelow n (s.memWrite a k v) (s'.memWrite a k v) :=
  forUpto_agree h fun _ _ _ _ ht => ht.setFbByte _ _

theorem memRead_eq (a k : Nat) : s'.memRead a k = s.memRead a k :=
  have fields := h.same.fields
  State.memRead_congr fun _ _ => State.fbByte_congr (by simp only [fields]) (by simp only [fields]) _

theorem mapLanes (lane : Sample → Sample) (addr len : Nat) :
    AgreeBelow n (s.mapLanes lane addr len) (s'.mapLanes lane addr len) := by
  rw [State.mapLanes_flat, State.mapLanes_flat, h.same.fields.1]
  refine forUpto_agree h fun i t t' _ ht => ?_
  rw [State.mapLane, State.mapLane, ht.lane_eq]
  exact ht.memWrite _ _ _

theorem maskGroups (mask addr len : Nat) : AgreeBelow n (s.maskGroups mask addr len) (s'.maskGroups mask addr len) := by
  rw [State.maskGroups, State.maskGroups, h.same.fields.1]
  refine forUpto_agree h fun g t t' _ ht => ?_
  rw [ht.memRead_eq]
  exact ht.memWrite _ _ _

/-- A store of samples that agree. -/
theorem storeAcc {k : Nat} (le : k ≤ n) (addr : Nat) : AgreeBelow n (s.storeAcc addr k) (s'.storeAcc addr k) := by
  refine forUpto_agree h fun i t t' hi ht => ?_
  rw [ht.samples i (hi.trans_le le)]
  exact ht.memWrite _ _ _

end AgreeBelow

/-- Filling ACC with the same values makes the filled samples agree, whatever they were. -/
theorem fillAcc_agree {n : Nat} {s s' : State} {value : Nat → State → Sample} (same : s.SameExceptSamples s')
    (own : ∀ i (u t : State), u.SameExceptSamples t → t.accSample i = u.accSample i → value i t = value i u)
    (values : ∀ i, i < n → value i s = value i s') : AgreeBelow n (s.fillAcc n value) (s'.fillAcc n value) where
  same := by
    have fills := s.fillAcc_sameExceptSamples n value
    have fills' := s'.fillAcc_sameExceptSamples n value
    obtain ⟨acc, e⟩ := (same.trans fills').exists_acc
    obtain ⟨acc', e'⟩ := fills.exists_acc
    rw [e, e']
    rfl
  samples := fun i hi => by
    rw [State.fillAcc_accSample s n value (own · s), State.fillAcc_accSample s' n value (own · s'), if_pos hi, if_pos hi,
      values i hi]

/-! ## Commands -/

/-- The checks of a command read the control state only. -/
theorem checksOf_eq {s s' : State} (same : s.SameExceptSamples s') (i : Instr) : checksOf i s' = checksOf i s := by
  obtain ⟨acc, rfl⟩ := same.exists_acc
  cases i <;> rfl

/-- A change of FB alone: the session is what it was. -/
theorem indistinguishable_of_sameExceptFb {s t t' : State} (same : s.SameExceptFb t) (h : AgreeBelow s.held t t') :
    Indistinguishable t t' := by
  rwa [Indistinguishable, same.held_eq]

/-- ADDACC and DIVACC: the samples of the session are filled from samples of the session. -/
theorem indistinguishable_of_fillAcc {s s' : State} {value : Nat → State → Sample}
    (h : AgreeBelow s.accLen.toNat (s.fillAcc s.accLen.toNat value) (s'.fillAcc s.accLen.toNat value))
    (hv : s.accValid = true) :
    Indistinguishable (s.fillAcc s.accLen.toNat value) (s'.fillAcc s.accLen.toNat value) := by
  rwa [Indistinguishable, (s.fillAcc_sameExceptSamples _ value).held_eq, State.held_of_open hv]

/-- The loads: every sample of the session they open has just been filled. -/
theorem AgreeBelow.openSession {n : Nat} {s s' : State} (h : AgreeBelow n s s') (f : Format) :
    Indistinguishable (s.openSession n f) (s'.openSession n f) := by
  obtain ⟨same, samples⟩ := h.map (fun u => u.openSession n f) (fun _ _ => rfl) fun _ => rfl
  refine ⟨same, fun i hi => samples i (hi.trans_le ?_)⟩
  rw [State.held_of_open rfl, State.openSession_accLen, BitVec.toNat_ofNat]
  exact Nat.mod_le _ _

/-- The effect both loads share: the values come from FB. -/
theorem indistinguishable_of_load {s s' : State} {value : Nat → State → Sample} (same : s.SameExceptSamples s')
    (own : ∀ i (u t : State), u.SameExceptSamples t → value i t = value i u) (n : Nat) (f : Format) :
    Indistinguishable ((s.fillAcc n value).openSession n f) ((s'.fillAcc n value).openSession n f) :=
  (fillAcc_agree same (fun i u t same' _ => own i u t same') fun i _ => (own i s s' same).symm).openSession f

/-- A closed session holds no sample. -/
theorem AgreeBelow.closeSession {n : Nat} {s s' : State} (h : AgreeBelow n s s') :
    Indistinguishable s.closeSession s'.closeSession := by
  obtain ⟨same, _⟩ := h.map (fun u => u.closeSession) (fun _ _ => rfl) fun _ => rfl
  exact indistinguishable_iff.mpr ⟨same, fun hv => by simp at hv⟩

/-- An accepted command that checks `AccEmpty` runs in an open session. -/
theorem open_of_accepted {s : State} {i : Instr} (accepted : firstFault (checksOf i s) = none)
    (checked : (FaultCause.accEmpty, s.noSession) ∈ checksOf i s) : s.accValid = true := by
  simpa [State.noSession] using firstFault_eq_none accepted _ checked

theorem effectOf_indistinguishable {s s' : State} (h : Indistinguishable s s') {i : Instr}
    (accepted : firstFault (checksOf i s) = none) : Indistinguishable (effectOf i s) (effectOf i s') := by
  have cfg : s'.cfg = s.cfg := h.same.fields.1
  have len : s'.accLen = s.accLen := by simp only [h.same.fields]
  cases i with
  | unpack f addr len =>
    exact indistinguishable_of_sameExceptFb (s.mapLanes_sameExceptFb _ _ _) (h.mapLanes _ _ _)
  | mask f addr len =>
    simp only [effectOf, cfg]
    exact indistinguishable_of_sameExceptFb (s.maskGroups_sameExceptFb _ _ _) (h.maskGroups _ _ _)
  | shl f addr len =>
    exact indistinguishable_of_sameExceptFb (s.mapLanes_sameExceptFb _ _ _) (h.mapLanes _ _ _)
  | pad f addr len =>
    exact indistinguishable_of_sameExceptFb (s.mapLanes_sameExceptFb _ _ _) (h.mapLanes _ _ _)
  | ldacc f addr len =>
    exact indistinguishable_of_load h.same (fun i _ _ same => lane_own (addr.toNat + 2 * i) same) _ f
  | ldaccu f addr len =>
    exact indistinguishable_of_load h.same (fun i _ _ same => ldaccuSample_own f addr.toNat len.toNat i same) _ f
  | addacc addr len' =>
    have hv := open_of_accepted accepted (by simp [checksOf])
    simp only [effectOf, len]
    refine indistinguishable_of_fillAcc (fillAcc_agree h.same ?_ ?_) hv
    · intro i u t same sample
      rw [sample, lane_own _ same]
    · intro i hi
      rw [h.samples i (by rwa [State.held_of_open hv]), h.lane_eq]
  | divacc k =>
    have hv := open_of_accepted accepted (by simp [checksOf])
    simp only [effectOf, len]
    refine indistinguishable_of_fillAcc (fillAcc_agree h.same ?_ ?_) hv
    · intro i u t same sample
      rw [sample]
    · intro i hi
      rw [h.samples i (by rwa [State.held_of_open hv])]
  | stacc addr =>
    have hv := open_of_accepted accepted (by simp [checksOf])
    simp only [effectOf, len]
    exact (h.storeAcc (State.held_of_open hv).ge _).closeSession

/-! ## Steps -/

/-- Two outcomes of one kind: related next states, or the same reason to stop. -/
inductive SameOutcome : Host.Outcome State Fault Refusal → Host.Outcome State Fault Refusal → Prop where
  | next {t t' : State} (h : Indistinguishable t t') : SameOutcome (.next t) (.next t')
  | fault (r : Fault) : SameOutcome (.fault r) (.fault r)
  | refused (r : Refusal) : SameOutcome (.refused r) (.refused r)

theorem SameOutcome.of_next {t : State} {o : Host.Outcome State Fault Refusal} (h : SameOutcome (.next t) o) :
    ∃ t', o = .next t' ∧ Indistinguishable t t' := by
  cases h with
  | next related => exact ⟨_, rfl, related⟩

theorem SameOutcome.of_fault {r : Fault} {o : Host.Outcome State Fault Refusal} (h : SameOutcome (.fault r) o) :
    o = .fault r := by
  cases h with
  | fault => rfl

/-- Fault entry, a read by the host, a move taken from the list: the session and ACC are what they were. -/
theorem Indistinguishable.map {s s' : State} (h : Indistinguishable s s') (op : State → State)
    (ignores : ∀ u acc, op (u.withAcc acc) = (op u).withAcc acc)
    (resets : ∀ u, (op u).resets = u.resets) (held : (op s).held = s.held) : Indistinguishable (op s) (op s') := by
  rw [Indistinguishable, held]
  exact AgreeBelow.map h op ignores resets

/-- A command over related states with the same checks (R133, R134). -/
theorem issue_sameOutcome {s s' : State} (h : Indistinguishable s s') {info : Word}
    {checks : List (FaultCause × Bool)} {effect : State → State}
    (done : firstFault checks = none → Indistinguishable (effect s) (effect s')) :
    SameOutcome (issue info checks effect s) (issue info checks effect s') := by
  have hf : s'.fault = s.fault := by simp only [h.same.fields]
  rcases issue_cases info checks effect s with ⟨hs, e⟩ | ⟨hs, c, hc, e⟩ | ⟨hs, hc, e⟩ <;> rw [e] <;> rw [hs] at hf
  · rw [issue_halted hf]
    exact .next h
  · rw [issue_faults hf hc]
    exact .next (h.map (fun u => u.takeFault c info) (fun _ _ => rfl) (fun _ => rfl) rfl)
  · rw [issue_runs hf hc]
    exact .next (done hc)

theorem submitDescriptor_sameOutcome {s s' : State} (h : Indistinguishable s s') (d : DescriptorBits) :
    SameOutcome (submitDescriptor d s) (submitDescriptor d s') := by
  unfold submitDescriptor
  split
  · next i _ =>
    rw [exec_eq_issue, exec_eq_issue, checksOf_eq h.same]
    exact issue_sameOutcome h (effectOf_indistinguishable h)
  · exact issue_sameOutcome h fun _ => h

theorem hostMove_sameOutcome {s s' : State} (h : Indistinguishable s s') (m : HostMove) :
    SameOutcome (hostMove m s) (hostMove m s') := by
  have cfg : s'.cfg = s.cfg := h.same.fields.1
  cases m with
  | submit d => exact submitDescriptor_sameOutcome h d
  | readReg n =>
    refine .next (h.map (fun u => { u with hostRead := some (u.readRegister (RegName.ofNumber n)) })
      (fun u acc => ?_) (fun _ => rfl) rfl)
    rw [State.readRegister_withAcc]
    rfl
  | writeReg n v => exact .next h
  | readFb a =>
    rcases Nat.lt_or_ge a s.cfg.fbBytes with ha | ha
    · rw [hostMove_readFb ha, hostMove_readFb (cfg ▸ ha)]
      exact .next (h.map (fun u => { u with hostRead := some ((u.fbByte a).setWidth 32) }) (fun _ _ => rfl)
        (fun _ => rfl) rfl)
    · rw [hostMove_readFb_absent ha, hostMove_readFb_absent (cfg ▸ ha)]
      exact .fault _
  | writeFb a b =>
    rcases Nat.lt_or_ge a s.cfg.fbBytes with ha | ha
    · rw [hostMove_writeFb b ha, hostMove_writeFb b (cfg ▸ ha)]
      exact .next (h.setFbByte a b)
    · rw [hostMove_writeFb_absent b ha, hostMove_writeFb_absent b (cfg ▸ ha)]
      exact .fault _
  | reset =>
    obtain ⟨acc, rfl⟩ := h.same.exists_acc
    exact .next ⟨rfl, fun _ _ => rfl⟩

theorem step_sameOutcome {s s' : State} (h : Indistinguishable s s') : SameOutcome (step s) (step s') := by
  have moves : s'.moves = s.moves := by simp only [h.same.fields]
  cases hm : s.moves with
  | nil =>
    simp only [step, moves, hm]
    exact .next h
  | cons m rest =>
    rw [step_of_moves hm, step_of_moves (moves.trans hm)]
    exact hostMove_sameOutcome (h.map (fun u => { u with moves := rest }) (fun _ _ => rfl) (fun _ => rfl) rfl) m

/-- Settles O46: the relation of the statement is kept by every step. -/
theorem samplesOutsideTheSessionAreUnobservable : Obligations.SamplesOutsideTheSessionAreUnobservable := by
  intro s s' same samples
  have steps := step_sameOutcome (indistinguishable_iff.mpr ⟨same, samples⟩)
  refine ⟨fun t ht => ?_, fun r hr => ?_⟩
  · obtain ⟨t', ht', related⟩ := (ht ▸ steps).of_next
    exact ⟨t', ht', indistinguishable_iff.mp related⟩
  · exact (hr ▸ steps).of_fault

end Sys2Proof.Machine
end

section
/-! PROOFS. What the host's moves keep in order (spec/20_memory.md R42), the two little-endian access primitives (R31), a
group as one number and as lanes (R32), and what a transform reads and writes (R34 to R36, R44). -/

namespace Sys2Proof.Machine

/-! ## Moves in order -/

theorem submitDescriptor_of_decode {d : DescriptorBits} {i : Instr} (decoded : decode d = .ok i) (s : State) :
    submitDescriptor d s = exec i s := by simp only [submitDescriptor, decoded]

/-- Settles O5: the first move hands its descriptor to the port, and the port runs what the descriptor decodes to. -/
theorem stepRunsTheDecodedCommand : Obligations.StepRunsTheDecodedCommand := by
  intro s d rest i moves decoded
  calc step s = submitDescriptor d { s with moves := rest } := step_of_moves moves
    _ = exec i { s with moves := rest } := submitDescriptor_of_decode decoded _

theorem State.SameExceptFb.moves_eq {s t : State} (h : s.SameExceptFb t) : t.moves = s.moves := by
  simp only [h.fields]

theorem State.fillAcc_moves (s : State) (n : Nat) (value : Nat → State → Sample) :
    (s.fillAcc n value).moves = s.moves := by
  simp only [(s.fillAcc_sameExceptSamples n value).fields]

/-- No command looks ahead: the moves still pending are the host's alone (R42). -/
theorem effectOf_moves (i : Instr) (s : State) : (effectOf i s).moves = s.moves := by
  cases i with
  | unpack f addr len => exact (s.mapLanes_sameExceptFb _ _ _).moves_eq
  | mask f addr len => exact (s.maskGroups_sameExceptFb _ _ _).moves_eq
  | shl f addr len => exact (s.mapLanes_sameExceptFb _ _ _).moves_eq
  | pad f addr len => exact (s.mapLanes_sameExceptFb _ _ _).moves_eq
  | ldacc f addr len => exact s.fillAcc_moves _ _
  | ldaccu f addr len => exact s.fillAcc_moves _ _
  | addacc addr len => exact s.fillAcc_moves _ _
  | divacc k => exact s.fillAcc_moves _ _
  | stacc addr => exact (s.storeAcc_sameExceptFb _ _).moves_eq

theorem MoveLeaves.moves_eq {s t : State} {m : HostMove} (leaves : MoveLeaves s m t) : t.moves = s.moves := by
  cases leaves with
  | ran => exact effectOf_moves _ s
  | faulted | discarded | registerRead | registerWrite | byteRead | byteWrite | reset => rfl

theorem step_of_no_moves {s : State} (h : s.moves = []) : step s = .next s := by simp only [step, h]

/-- Settles O6: the step takes the head of the list before the move acts, and no move touches the rest. -/
theorem stepTakesTheFirstMove : Obligations.StepTakesTheFirstMove := by
  refine ⟨fun s t h => ?_, fun s => step_of_no_moves⟩
  cases moves : s.moves with
  | nil =>
    rw [step_of_no_moves moves] at h
    cases h
    exact moves
  | cons m rest =>
    rw [step_of_moves moves] at h
    exact (hostMove_next h).moves_eq

/-! ## Little-endian numbers -/

/-- A read of adjacent pieces: the piece at the lower address is the less significant one (R31). -/
theorem State.memRead_add (s : State) (a m n : Nat) :
    s.memRead a (m + n) = s.memRead a m + 256 ^ m * s.memRead (a + m) n := by
  induction m generalizing a with
  | zero => simp [State.memRead]
  | succ m ih =>
    rw [show m + 1 + n = m + n + 1 by omega, State.memRead, State.memRead, ih, Nat.pow_succ,
      show a + 1 + m = a + (m + 1) by omega]
    ring

/-- Shifting out the low bytes leaves the read that starts behind them. -/
theorem State.memRead_shiftRight (s : State) (a m n : Nat) :
    s.memRead a (m + n) >>> (8 * m) = s.memRead (a + m) n := by
  rw [State.memRead_add, Nat.shiftRight_eq_div_pow, Nat.pow_mul, Nat.add_mul_div_left _ _ (by positivity),
    Nat.div_eq_of_lt (s.memRead_lt a m), Nat.zero_add]

/-- Keeping the low bytes only is the shorter read. -/
theorem State.memRead_mod (s : State) (a m n : Nat) : s.memRead a (m + n) % 256 ^ m = s.memRead a m := by
  rw [State.memRead_add, Nat.add_mul_mod_self_left, Nat.mod_eq_of_lt (s.memRead_lt a m)]

/-- R31's sum. -/
theorem State.memRead_eq_sum (s : State) (a n : Nat) :
    s.memRead a n = ((List.range n).map fun j => (s.fbByte (a + j)).toNat * 256 ^ j).sum := by
  induction n with
  | zero => rfl
  | succ n ih =>
    have last : s.memRead (a + n) 1 = (s.fbByte (a + n)).toNat := rfl
    rw [State.memRead_add, ih, last, List.sum_range_succ, Nat.mul_comm]

/-- A read of bytes that are those of `v` gives `v`, up to the width of the read. -/
theorem State.memRead_of_bytes {s : State} {a n v : Nat}
    (bytes : ∀ j, j < n → s.fbByte (a + j) = BitVec.ofNat 8 (v >>> (8 * j))) : s.memRead a n = v % 256 ^ n := by
  induction n with
  | zero => simp [State.memRead, Nat.mod_one]
  | succ n ih =>
    have last : s.memRead (a + n) 1 = v / 256 ^ n % 256 := by
      simp [State.memRead, bytes n (Nat.lt_succ_self n), Nat.shiftRight_eq_div_pow, Nat.pow_mul]
    rw [State.memRead_add, ih fun j hj => bytes j (Nat.lt_succ_of_lt hj), last, Nat.pow_succ, Nat.mod_mul]

/-- What a write stores is read back, up to the width of the write (R31). -/
theorem State.memRead_memWrite (s : State) (a n v : Nat) : (s.memWrite a n v).memRead a n = v % 256 ^ n := by
  refine State.memRead_of_bytes fun j hj => ?_
  rw [State.memWrite_fbByte, if_pos (by omega), Nat.add_sub_cancel_left]

/-- Settles O24: `memWrite_fbByte` says what a write does to each byte, and a number is the sum of its bytes. -/
theorem littleEndianAccess : Obligations.LittleEndianAccess := by
  refine fun s a n => ⟨s.memRead_eq_sum a n, fun v hv => ⟨?_, fun j hj => ?_, fun c hc => ?_⟩⟩
  · rw [State.memRead_memWrite, Nat.mod_eq_of_lt hv]
  · rw [State.memWrite_fbByte, if_pos (by omega), Nat.add_sub_cancel_left, BitVec.toNat_ofNat]
  · rw [State.memWrite_fbByte, if_neg (by omega)]

/-! ## A group as one number and as lanes -/

/-- Lane `i` of a longer read is its 16 bits from `16 * i` on (R32). -/
theorem State.lane_toNat_eq_memRead (s : State) (a : Nat) {i n : Nat} (inside : 2 * i + 2 ≤ n) :
    (s.lane (a + 2 * i)).toNat = (s.memRead a n >>> (16 * i)) % 2 ^ 16 := by
  obtain ⟨m, rfl⟩ : ∃ m, n = 2 * i + (2 + m) := ⟨n - (2 * i + 2), by omega⟩
  calc (s.lane (a + 2 * i)).toNat = s.memRead (a + 2 * i) 2 := Nat.mod_eq_of_lt (s.memRead_lt _ 2)
    _ = s.memRead (a + 2 * i) (2 + m) % 2 ^ 16 := (s.memRead_mod _ 2 m).symm
    _ = (s.memRead a (2 * i + (2 + m)) >>> (16 * i)) % 2 ^ 16 := by
      rw [← State.memRead_shiftRight, show 8 * (2 * i) = 16 * i by omega]

/-- The mask of width `16 * 2^k` is the 16-bit mask tiled (R73, R74). -/
theorem testBit_leftMask (f : Format) (k j : Nat) :
    (leftMask f k).testBit j = (decide (j < 16 * 2 ^ k) && (leftMask16 f).getLsbD (j % 16)) := by
  induction k generalizing j with
  | zero =>
    rw [leftMask, BitVec.testBit_toNat]
    by_cases inside : j < 16
    · simp [inside, Nat.mod_eq_of_lt inside]
    · simp [inside, BitVec.getLsbD_of_ge _ j (Nat.not_lt.mp inside)]
  | succ k ih =>
    rw [leftMask, Nat.testBit_or, Nat.testBit_shiftLeft, ih, ih, Nat.pow_succ]
    by_cases low : j < 16 * 2 ^ k
    · simp [low, show j < 16 * (2 ^ k * 2) by omega]
    · have tile : (j - 16 * 2 ^ k) % 16 = j % 16 := by omega
      have high : j - 16 * 2 ^ k < 16 * 2 ^ k ↔ j < 16 * (2 ^ k * 2) := by omega
      simp [low, tile, high, Nat.not_lt.mp low]

/-- Every lane of the tiled mask is the 16-bit mask. -/
theorem leftMask_lane (f : Format) {k i : Nat} (inside : i < 2 ^ k) :
    (leftMask f k >>> (16 * i)) % 2 ^ 16 = (leftMask16 f).toNat := by
  refine Nat.eq_of_testBit_eq fun b => ?_
  rw [Nat.testBit_mod_two_pow, Nat.testBit_shiftRight, testBit_leftMask, BitVec.testBit_toNat]
  by_cases hb : b < 16
  · simp [hb, show 16 * i + b < 16 * 2 ^ k by omega, Nat.mod_eq_of_lt hb]
  · simp [hb, BitVec.getLsbD_of_ge _ b (Nat.not_lt.mp hb)]

/-- Settles O25: shifting and reducing mod 2^16 distribute over AND, and lane `i` of the mask is the 16-bit mask. -/
theorem groupAndItsLanesAreTheSameData : Obligations.GroupAndItsLanesAreTheSameData := by
  intro s f a k i inside
  have lane := s.lane_toNat_eq_memRead a (i := i) (n := 2 * 2 ^ k) (by omega)
  refine ⟨lane, ?_⟩
  rw [Nat.shiftRight_and_distrib, Nat.and_mod_two_pow, ← lane, leftMask_lane f inside, BitVec.toNat_and]

/-! ## The transforms -/

theorem effectOf_transform_sameExceptFb (x : Transform) (f : Format) (addr len : Word) (s : State) :
    s.SameExceptFb (effectOf (x.instr f addr len) s) := by
  cases x with
  | unpack | shl | pad => exact s.mapLanes_sameExceptFb _ _ _
  | mask => exact s.maskGroups_sameExceptFb _ _ _

/-- No transform writes outside its whole groups (R35, R36). -/
theorem effectOf_transform_outside (x : Transform) (f : Format) {addr len : Word} {s : State} {a : Nat}
    (outside : a < addr.toNat ∨ addr.toNat + s.wholeBytes len ≤ a) :
    (effectOf (x.instr f addr len) s).fbByte a = s.fbByte a := by
  cases x with
  | unpack | shl | pad => exact s.mapLanes_fbByte_outside _ _ _ a outside
  | mask =>
    refine (s.maskGroups_fbByte _ _ _ a).trans (if_neg ?_)
    unfold State.wholeBytes at outside
    unfold groupCount
    omega

/-- Settles O30: a discarded transform changes nothing, fault entry the fault record alone, an accepted one FB alone. -/
theorem transformFrame : Obligations.TransformFrame := by
  intro x f addr len s t h
  rw [exec_eq_issue] at h
  rcases issue_cases (finfoOf (x.instr f addr len)) (checksOf (x.instr f addr len) s) (effectOf (x.instr f addr len)) s
    with ⟨_, e⟩ | ⟨running, c, _, e⟩ | ⟨_, _, e⟩ <;> rw [e] at h <;> cases h
  · exact ⟨fun _ _ => rfl, rfl, fun _ => ⟨rfl, rfl⟩⟩
  · refine ⟨fun _ _ => rfl, rfl, fun same => ?_⟩
    rw [State.takeFault_fault, running] at same
    cases same
  · have frame := effectOf_transform_sameExceptFb x f addr len s
    obtain ⟨-, -, -, -, -, fault, cause, finfo, -, -, -⟩ := frame.fields
    refine ⟨fun a => effectOf_transform_outside x f, ?_, fun _ => ⟨cause, finfo⟩⟩
    rw [← fault, ← cause, ← finfo]
    exact frame

/-- A transform that is not halted and in range runs. -/
theorem exec_transform (x : Transform) (f : Format) {addr len : Word} {s : State} (running : s.NoFault)
    (inRange : addr.toNat + len.toNat ≤ s.cfg.fbBytes) :
    exec (x.instr f addr len) s = .next (effectOf (x.instr f addr len) s) := by
  have accepted : firstFault [(.range, s.outOfRange addr.toNat len.toNat)] = none := by
    simp [firstFault, State.outOfRange, inRange]
  rw [exec_eq_issue]
  cases x with
  | unpack | mask | shl | pad => exact issue_runs running accepted _ _

/-- A byte of a whole group after a lane loop depends only on the two bytes of its lane (R45). -/
theorem State.mapLanes_fbByte_congr {s s' : State} (cfg : s.cfg = s'.cfg) (lane : Sample → Sample) {addr len c : Nat}
    (inside : c < groupBytes s.cfg * groupCount s.cfg len)
    (agree : ∀ d, d / 2 = c / 2 → s.fbByte (addr + d) = s'.fbByte (addr + d)) :
    (s.mapLanes lane addr len).fbByte (addr + c) = (s'.mapLanes lane addr len).fbByte (addr + c) := by
  have converted : c / 2 < convertedLanes s.cfg len := by
    have := two_mul_convertedLanes s.cfg len
    omega
  have lanes : (s.mapLanes lane addr len).lane (addr + 2 * (c / 2)) =
      (s'.mapLanes lane addr len).lane (addr + 2 * (c / 2)) := by
    rw [s.mapLanes_lane lane addr len _ converted, s'.mapLanes_lane lane addr len _ (cfg ▸ converted),
      State.lane_congr (agree _ (by omega)) (agree (2 * (c / 2) + 1) (by omega))]
  obtain ⟨low, high⟩ := (s.mapLanes lane addr len).fbByte_eq_of_lane (addr + 2 * (c / 2))
  obtain ⟨low', high'⟩ := (s'.mapLanes lane addr len).fbByte_eq_of_lane (addr + 2 * (c / 2))
  rcases Nat.mod_two_eq_zero_or_one c with even | odd
  · rw [show addr + c = addr + 2 * (c / 2) by omega, low, low', lanes]
  · rw [show addr + c = addr + 2 * (c / 2) + 1 by omega, high, high', lanes]

/-- A byte of a whole group after MASK depends only on that byte. -/
theorem State.maskGroups_fbByte_congr {s s' : State} (cfg : s.cfg = s'.cfg) (mask addr len : Nat) {a : Nat}
    (agree : s.fbByte a = s'.fbByte a) :
    (s.maskGroups mask addr len).fbByte a = (s'.maskGroups mask addr len).fbByte a := by
  rw [State.maskGroups_fbByte, State.maskGroups_fbByte, cfg, agree]

/-- What all four transforms share: a byte of a whole group depends at most on the two bytes of its lane. -/
theorem effectOf_transform_congr (x : Transform) (f : Format) {addr len : Word} {s s' : State} (cfg : s.cfg = s'.cfg)
    {c : Nat} (inside : c < s.wholeBytes len)
    (agree : ∀ d, d / 2 = c / 2 → s.fbByte (addr.toNat + d) = s'.fbByte (addr.toNat + d)) :
    (effectOf (x.instr f addr len) s).fbByte (addr.toNat + c) =
      (effectOf (x.instr f addr len) s').fbByte (addr.toNat + c) := by
  cases x with
  | unpack | shl | pad => exact State.mapLanes_fbByte_congr cfg _ inside agree
  | mask =>
    simp only [Transform.instr, effectOf, cfg]
    exact State.maskGroups_fbByte_congr cfg _ _ _ (agree c rfl)

/-- Settles O31: a group holds whole lanes, so the two bytes of each of its lanes lie in it. -/
theorem groupsAreIndependent : Obligations.GroupsAreIndependent := by
  intro x f addr len s s' t t' g running running' cfg inRange isGroup agree ran ran' j inGroup
  rw [exec_transform x f running inRange] at ran
  rw [exec_transform x f running' (cfg ▸ inRange)] at ran'
  cases ran
  cases ran'
  have even := groupBytes_half s.cfg
  have start : groupBytes s.cfg * g = 2 * (groupBytes s.cfg / 2 * g) := by rw [← Nat.mul_assoc, ← even]
  have inside : groupBytes s.cfg * g + j < s.wholeBytes len := by
    have group : groupBytes s.cfg * (g + 1) ≤ s.wholeBytes len := Nat.mul_le_mul_left _ isGroup
    rw [Nat.mul_succ] at group
    omega
  rw [Nat.add_assoc]
  refine effectOf_transform_congr x f cfg inside fun d sameLane => ?_
  have own := agree (d - groupBytes s.cfg * g) (by omega)
  rwa [Nat.add_assoc, Nat.add_sub_cancel' (by omega)] at own

end Sys2Proof.Machine
end

section
/-! PROOFS. The encoding (spec/30_encoding.md). A descriptor is legal exactly when it is the fields of a command (R54), the
decoder answers exactly that command, and the opcode table's match and mask say the same bit by bit (R61). -/

namespace Sys2Proof

/-! ## What each class of opcodes decodes to, and what R54 asks of it -/

namespace Descriptor

theorem eq_iff {x y : Descriptor} :
    x = y ↔ x.op = y.op ∧ x.fmt = y.fmt ∧ x.rsv = y.rsv ∧ x.addr = y.addr ∧ x.len = y.len ∧ x.arg = y.arg := by
  cases x
  cases y
  simp only [Descriptor.mk.injEq]

theorem op_cases (x : Descriptor) :
    (1 ≤ x.op.toNat ∧ x.op.toNat ≤ 6) ∨ x.op = 7 ∨ x.op = 8 ∨ x.op = 9 ∨ x.opDefined = false := by
  simp only [opDefined, decide_eq_false_iff_not, BitVec.toNat_eq, BitVec.ofNat_eq_ofNat, BitVec.toNat_ofNat]
  omega

theorem rsv_eq_zero_of_decode {x : Descriptor} {i : Instr} (h : x.decode = .ok i) : x.rsv = 0 := by
  rw [Descriptor.decode, reject_if] at h
  exact not_not.mp h.1

theorem decode_of_reserved {x : Descriptor} (reserved : x.opDefined = false) (i : Instr) : x.decode ≠ .ok i := by
  obtain ⟨op, fmt, rsv, addr, len, arg⟩ := x
  intro h
  have hop : ∀ op' : BitVec 4, 1 ≤ op'.toNat ∧ op'.toNat ≤ 9 → op ≠ op' := fun op' defined e => by
    simp [opDefined, e, defined] at reserved
  simp only [Descriptor.decode, reject_if] at h
  simp [hop] at h

/-- The six commands with a format: each opcode has one constructor, and the fields with no operand are 0. -/
theorem exists_format_command {x : Descriptor} (h : 1 ≤ x.op.toNat ∧ x.op.toNat ≤ 6) (rsv : x.rsv = 0) :
    ∃ mk : Format → Word → Word → Instr,
      (∀ f addr len, (mk f addr len).descriptor = ⟨x.op, f.code, 0, addr, len, 0⟩) ∧ x.decode = x.withFormat mk := by
  obtain e | e | e | e | e | e : x.op = 1 ∨ x.op = 2 ∨ x.op = 3 ∨ x.op = 4 ∨ x.op = 5 ∨ x.op = 6 := by
    generalize x.op = op at h
    revert op
    decide
  · exact ⟨.unpack, by simp [Instr.descriptor, e], by simp [Descriptor.decode, rsv, e]⟩
  · exact ⟨.mask, by simp [Instr.descriptor, e], by simp [Descriptor.decode, rsv, e]⟩
  · exact ⟨.shl, by simp [Instr.descriptor, e], by simp [Descriptor.decode, rsv, e]⟩
  · exact ⟨.pad, by simp [Instr.descriptor, e], by simp [Descriptor.decode, rsv, e]⟩
  · exact ⟨.ldacc, by simp [Instr.descriptor, e], by simp [Descriptor.decode, rsv, e]⟩
  · exact ⟨.ldaccu, by simp [Instr.descriptor, e], by simp [Descriptor.decode, rsv, e]⟩

theorem decode_of_addacc {x : Descriptor} (op : x.op = 7) (rsv : x.rsv = 0) : x.decode = x.decodeAddacc := by
  simp [Descriptor.decode, op, rsv]

theorem decode_of_divacc {x : Descriptor} (op : x.op = 8) (rsv : x.rsv = 0) : x.decode = x.decodeDivacc := by
  simp [Descriptor.decode, op, rsv]

theorem decode_of_stacc {x : Descriptor} (op : x.op = 9) (rsv : x.rsv = 0) : x.decode = x.decodeStacc := by
  simp [Descriptor.decode, op, rsv]

theorem wellFormed_iff {x : Descriptor} :
    x.wellFormed = true ↔ x.opDefined = true ∧ x.rsvZero = true ∧ x.fmtFits = true ∧ x.addrFits = true ∧
      x.lenFits = true ∧ x.argFits = true := by
  simp only [wellFormed, Bool.and_eq_true, and_assoc]

theorem wellFormed_format {x : Descriptor} (h : 1 ≤ x.op.toNat ∧ x.op.toNat ≤ 6) :
    x.wellFormed = true ↔ x.rsv = 0 ∧ (x.fmt = 0xA ∨ x.fmt = 0xC) ∧ x.arg = 0 := by
  have h8 : ¬ x.op = 8#4 := fun e => by simp [e] at h
  have h9 : ¬ x.op = 9#4 := fun e => by simp [e] at h
  have defined : x.opDefined = true := decide_eq_true ⟨h.1, by omega⟩
  simp [wellFormed_iff, defined, rsvZero, fmtFits, addrFits, lenFits, argFits, h, h8, h9]

theorem wellFormed_addacc {x : Descriptor} (op : x.op = 7) :
    x.wellFormed = true ↔ x.rsv = 0 ∧ x.fmt = 0 ∧ x.arg = 0 := by
  simp [wellFormed_iff, opDefined, rsvZero, fmtFits, addrFits, lenFits, argFits, op]

theorem wellFormed_divacc {x : Descriptor} (op : x.op = 8) :
    x.wellFormed = true ↔ x.rsv = 0 ∧ x.fmt = 0 ∧ x.addr = 0 ∧ x.len = 0 ∧ x.arg.toNat < 2 ^ 16 := by
  simp [wellFormed_iff, opDefined, rsvZero, fmtFits, addrFits, lenFits, argFits, op]

theorem wellFormed_stacc {x : Descriptor} (op : x.op = 9) :
    x.wellFormed = true ↔ x.rsv = 0 ∧ x.fmt = 0 ∧ x.len = 0 ∧ x.arg = 0 := by
  simp [wellFormed_iff, opDefined, rsvZero, fmtFits, addrFits, lenFits, argFits, op]

end Descriptor

theorem Format.exists_code_iff {c : BitVec 4} : (∃ f : Format, c = f.code) ↔ c = 0xA ∨ c = 0xC :=
  ⟨fun ⟨f, h⟩ => h ▸ Machine.format_code_cases f, fun h => h.elim (fun e => ⟨.raw10, e⟩) fun e => ⟨.raw12, e⟩⟩

/-- The check of R54 on DIVACC's `arg`, as the decoder makes it. -/
theorem extract_high_eq_zero_iff {v : Word} : v.extractLsb' 16 16 = 0 ↔ v.toNat < 2 ^ 16 := by
  have hv := v.isLt
  rw [BitVec.toNat_eq]
  simp only [BitVec.extractLsb'_toNat, Nat.shiftRight_eq_div_pow, BitVec.ofNat_eq_ofNat, BitVec.toNat_ofNat]
  omega

/-! ## The fields of a command and the decoder -/

/-- The decoder gives a command's fields back as the command. -/
theorem Instr.decode_descriptor (i : Instr) : i.descriptor.decode = .ok i := by
  cases i with
  | unpack f | mask f | shl f | pad f | ldacc f | ldaccu f => cases f <;> rfl
  | addacc | stacc => rfl
  | divacc k =>
    rw [Descriptor.decode_of_divacc rfl rfl, Descriptor.decodeDivacc_ok]
    exact ⟨rfl, rfl, rfl, extract_high_setWidth k, congrArg Instr.divacc (extract_low_setWidth k)⟩

/-- A decoded command has every field of the descriptor: the bits that no operand holds are fixed by the checks. -/
theorem Descriptor.descriptor_of_decode {x : Descriptor} {i : Instr} (h : x.decode = .ok i) : i.descriptor = x := by
  have rsv := rsv_eq_zero_of_decode h
  obtain op | op | op | op | op := x.op_cases
  · obtain ⟨mk, fields, decode⟩ := exists_format_command op rsv
    rw [decode, withFormat_ok] at h
    obtain ⟨f, fmt, arg, rfl⟩ := h
    rw [fields]
    exact eq_iff.mpr ⟨rfl, fmt.symm, rsv.symm, rfl, rfl, arg.symm⟩
  · rw [decode_of_addacc op rsv, decodeAddacc_ok] at h
    obtain ⟨fmt, arg, rfl⟩ := h
    exact eq_iff.mpr ⟨op.symm, fmt.symm, rsv.symm, rfl, rfl, arg.symm⟩
  · rw [decode_of_divacc op rsv, decodeDivacc_ok] at h
    obtain ⟨fmt, addr, len, high, rfl⟩ := h
    exact eq_iff.mpr ⟨op.symm, fmt.symm, rsv.symm, addr.symm, len.symm, setWidth_extract_low high⟩
  · rw [decode_of_stacc op rsv, decodeStacc_ok] at h
    obtain ⟨fmt, len, arg, rfl⟩ := h
    exact eq_iff.mpr ⟨op.symm, fmt.symm, rsv.symm, rfl, len.symm, arg.symm⟩
  · exact absurd h (decode_of_reserved op i)

theorem Descriptor.decode_eq_ok_iff {x : Descriptor} {i : Instr} : x.decode = .ok i ↔ i.descriptor = x :=
  ⟨descriptor_of_decode, fun h => h ▸ i.decode_descriptor⟩

theorem Instr.descriptor_wellFormed (i : Instr) : i.descriptor.wellFormed = true := by
  have legal : Laws.EncodesLegal.Statement i := by
    cases i with
    | unpack f addr len => exact Laws.EncodesLegal.unpack f addr len
    | mask f addr len => exact Laws.EncodesLegal.mask f addr len
    | shl f addr len => exact Laws.EncodesLegal.shl f addr len
    | pad f addr len => exact Laws.EncodesLegal.pad f addr len
    | ldacc f addr len => exact Laws.EncodesLegal.ldacc f addr len
    | ldaccu f addr len => exact Laws.EncodesLegal.ldaccu f addr len
    | addacc addr len => exact Laws.EncodesLegal.addacc addr len
    | divacc k => exact Laws.EncodesLegal.divacc k
    | stacc addr => exact Laws.EncodesLegal.stacc addr
  rwa [Laws.EncodesLegal.Statement, encode, Descriptor.ofBits_toBits] at legal

/-- R54's checks leave nothing free but the operands of one command. -/
theorem Descriptor.exists_decode_of_wellFormed {x : Descriptor} (legal : x.wellFormed = true) : ∃ i, x.decode = .ok i := by
  obtain op | op | op | op | op := x.op_cases
  · obtain ⟨rsv, fmt, arg⟩ := (wellFormed_format op).mp legal
    obtain ⟨mk, -, decode⟩ := exists_format_command op rsv
    obtain ⟨f, fmt⟩ := Format.exists_code_iff.mpr fmt
    exact ⟨_, decode.trans (withFormat_ok.mpr ⟨f, fmt, arg, rfl⟩)⟩
  · obtain ⟨rsv, fmt, arg⟩ := (wellFormed_addacc op).mp legal
    exact ⟨_, (decode_of_addacc op rsv).trans (decodeAddacc_ok.mpr ⟨fmt, arg, rfl⟩)⟩
  · obtain ⟨rsv, fmt, addr, len, arg⟩ := (wellFormed_divacc op).mp legal
    exact ⟨_, (decode_of_divacc op rsv).trans
      (decodeDivacc_ok.mpr ⟨fmt, addr, len, extract_high_eq_zero_iff.mpr arg, rfl⟩)⟩
  · obtain ⟨rsv, fmt, len, arg⟩ := (wellFormed_stacc op).mp legal
    exact ⟨_, (decode_of_stacc op rsv).trans (decodeStacc_ok.mpr ⟨fmt, len, arg, rfl⟩)⟩
  · rw [wellFormed_iff, op] at legal
    exact absurd legal.1 Bool.false_ne_true

/-! ## The 128 bits -/

theorem decode_eq_ok_iff_descriptor {d : DescriptorBits} {i : Instr} :
    decode d = .ok i ↔ i.descriptor = Descriptor.ofBits d := Descriptor.decode_eq_ok_iff

/-- Decoder and encoder are inverse on the legal descriptors. -/
theorem decode_eq_ok_iff {d : DescriptorBits} {i : Instr} : decode d = .ok i ↔ encode i = d := by
  rw [decode_eq_ok_iff_descriptor]
  constructor
  · intro h
    rw [encode, h, Descriptor.toBits_ofBits]
  · rintro rfl
    exact (Descriptor.ofBits_toBits _).symm

theorem wellFormed_iff_exists_decode {d : DescriptorBits} :
    (Descriptor.ofBits d).wellFormed = true ↔ ∃ i, decode d = .ok i := by
  refine ⟨Descriptor.exists_decode_of_wellFormed, fun ⟨i, h⟩ => ?_⟩
  rw [← decode_eq_ok_iff_descriptor.mp h]
  exact i.descriptor_wellFormed

/-- Settles O1: a command's 128 bits hold its fields, and the decoder gives a command's fields back as the command. -/
theorem decodeInvertsEncode : Obligations.DecodeInvertsEncode :=
  fun _ => decode_eq_ok_iff.mpr rfl

/-- Settles O2: R54's checks leave free exactly the operands, so the legal descriptors are the encodings. -/
theorem decodesExactlyTheLegalDescriptors : Obligations.DecodesExactlyTheLegalDescriptors :=
  fun _ => ⟨wellFormed_iff_exists_decode, fun _ => decode_eq_ok_iff.mp⟩

/-- Settles O4: each of the nine words is the encoding of its command. -/
theorem writtenDescriptorsDecode : Obligations.WrittenDescriptorsDecode := by
  simp only [Obligations.WrittenDescriptorsDecode, decode_eq_ok_iff]
  decide

/-! ## The opcode table -/

/-- The opcode that a row of the table stands for. -/
def OpcodeRow.op (r : OpcodeRow) : BitVec 4 := (Descriptor.ofBits r.matchBits).op

theorem Descriptor.ofBits_inj {d e : DescriptorBits} : Descriptor.ofBits d = Descriptor.ofBits e ↔ d = e :=
  ⟨fun h => by rw [← toBits_ofBits d, h, toBits_ofBits], congrArg _⟩

/-- A mask acts on each field by itself. -/
theorem Descriptor.ofBits_and (d m : DescriptorBits) :
    Descriptor.ofBits (d &&& m) =
      ⟨(ofBits d).op &&& (ofBits m).op, (ofBits d).fmt &&& (ofBits m).fmt, (ofBits d).rsv &&& (ofBits m).rsv,
        (ofBits d).addr &&& (ofBits m).addr, (ofBits d).len &&& (ofBits m).len, (ofBits d).arg &&& (ofBits m).arg⟩ := by
  simp only [ofBits, BitVec.extractLsb'_and]

/-- Selection, field by field in R54's order: `m` holds the fields of the row's mask; of the match only `op` is nonzero. -/
theorem OpcodeRow.selects_iff {r : OpcodeRow} {d : DescriptorBits} {m : Descriptor}
    (mask : Descriptor.ofBits r.maskBits = m) (only : Descriptor.ofBits r.matchBits = ⟨r.op, 0, 0, 0, 0, 0⟩) :
    r.selects d = true ↔
      ((Descriptor.ofBits d).op &&& m.op = r.op ∧ (Descriptor.ofBits d).rsv &&& m.rsv = 0 ∧
        (Descriptor.ofBits d).fmt &&& m.fmt = 0 ∧ (Descriptor.ofBits d).addr &&& m.addr = 0 ∧
        (Descriptor.ofBits d).len &&& m.len = 0 ∧ (Descriptor.ofBits d).arg &&& m.arg = 0) ∧
      (r.takesFmt = true → (Descriptor.ofBits d).fmt = 0xA ∨ (Descriptor.ofBits d).fmt = 0xC) := by
  have fields := Descriptor.ofBits_inj (d := d &&& r.maskBits) (e := r.matchBits)
  rw [Descriptor.ofBits_and, mask, only, Descriptor.mk.injEq] at fields
  rw [and_left_comm (a := _ &&& m.rsv = 0), fields]
  cases takes : r.takesFmt <;> simp [OpcodeRow.selects, takes, Descriptor.ofBits]

/-- A row with a format: its mask leaves `fmt`, `addr` and `len` free, and `fmt` is one of the two listed codes. -/
theorem OpcodeRow.selects_iff_of_format {r : OpcodeRow} {d : DescriptorBits}
    (mask : Descriptor.ofBits r.maskBits = ⟨.allOnes 4, 0, .allOnes 24, 0, 0, .allOnes 32⟩)
    (only : Descriptor.ofBits r.matchBits = ⟨r.op, 0, 0, 0, 0, 0⟩) (takes : r.takesFmt = true)
    (range : 1 ≤ r.op.toNat ∧ r.op.toNat ≤ 6) :
    r.selects d = true ↔ (Descriptor.ofBits d).op = r.op ∧ (Descriptor.ofBits d).wellFormed = true := by
  rw [selects_iff mask only]
  simp only [BitVec.and_allOnes, BitVec.and_zero, BitVec.ofNat_eq_ofNat, takes, true_and, forall_const]
  constructor
  · rintro ⟨⟨op, rsv, arg⟩, fmt⟩
    exact ⟨op, (Descriptor.wellFormed_format (op ▸ range)).mpr ⟨rsv, fmt, arg⟩⟩
  · rintro ⟨op, legal⟩
    obtain ⟨rsv, fmt, arg⟩ := (Descriptor.wellFormed_format (op ▸ range)).mp legal
    exact ⟨⟨op, rsv, arg⟩, fmt⟩

theorem and_high_mask_eq_zero_iff {v : Word} : v &&& 0xFFFF0000#32 = 0#32 ↔ v.toNat < 2 ^ 16 := by
  rw [← extract_high_eq_zero_iff]
  have halves : v.extractLsb' 16 16 ++ v.extractLsb' 0 16 = v := BitVec.extractLsb'_append_extractLsb'
  calc v &&& 0xFFFF0000#32 = 0#32
      ↔ (v.extractLsb' 16 16 ++ v.extractLsb' 0 16) &&& (BitVec.allOnes 16 ++ 0#16) = 0#16 ++ 0#16 := by rw [halves]; rfl
    _ ↔ v.extractLsb' 16 16 = 0 := by
      rw [BitVec.and_append, BitVec.and_allOnes, BitVec.and_zero, BitVec.append_left_inj]; rfl

/-- Every row selects the legal descriptors of its opcode: the mask fixes the fields that R54 fixes. -/
theorem selects_iff_wellFormed (d : DescriptorBits) :
    ∀ r ∈ opcodeTable,
      (r.selects d = true ↔ (Descriptor.ofBits d).op = r.op ∧ (Descriptor.ofBits d).wellFormed = true) := by
  simp only [opcodeTable, List.forall_mem_cons]
  refine ⟨?_, ?_, ?_, ?_, ?_, ?_, ?addacc, ?divacc, ?stacc, by simp⟩
  case addacc =>
    rw [OpcodeRow.selects_iff (m := ⟨.allOnes 4, .allOnes 4, .allOnes 24, 0, 0, .allOnes 32⟩) rfl rfl]
    refine Iff.trans ?_ (and_congr_right fun op => (Descriptor.wellFormed_addacc op).symm)
    simp only [BitVec.and_allOnes, BitVec.and_zero, BitVec.ofNat_eq_ofNat, Bool.false_eq_true, false_implies, and_true,
      true_and]
  case divacc =>
    rw [OpcodeRow.selects_iff (m := ⟨.allOnes 4, .allOnes 4, .allOnes 24, .allOnes 32, .allOnes 32, 0xFFFF0000⟩) rfl rfl]
    refine Iff.trans ?_ (and_congr_right fun op => (Descriptor.wellFormed_divacc op).symm)
    simp only [BitVec.and_allOnes, and_high_mask_eq_zero_iff, BitVec.ofNat_eq_ofNat, Bool.false_eq_true, false_implies,
      and_true]
  case stacc =>
    rw [OpcodeRow.selects_iff (m := ⟨.allOnes 4, .allOnes 4, .allOnes 24, 0, .allOnes 32, .allOnes 32⟩) rfl rfl]
    refine Iff.trans ?_ (and_congr_right fun op => (Descriptor.wellFormed_stacc op).symm)
    simp only [BitVec.and_allOnes, BitVec.and_zero, BitVec.ofNat_eq_ofNat, Bool.false_eq_true, false_implies, and_true,
      true_and]
  all_goals exact OpcodeRow.selects_iff_of_format rfl rfl rfl (by decide)

theorem Instr.mnemonic_eq_iff (i : Instr) : ∀ r ∈ opcodeTable, (i.mnemonic = r.mnemonic ↔ i.descriptor.op = r.op) := by
  cases i <;> simp only [Instr.mnemonic, Instr.descriptor] <;> decide

theorem Instr.exists_row (i : Instr) : ∃ r ∈ opcodeTable, i.mnemonic = r.mnemonic := by
  cases i <;> simp only [Instr.mnemonic] <;> decide

/-- Settles O3: a row selects the legal descriptors of its opcode, and the opcode is that of the row's command. -/
theorem tableRowSelectsItsCommand : Obligations.TableRowSelectsItsCommand := by
  intro d
  have row : ∀ r ∈ opcodeTable, (r.selects d = true ↔ ∃ i, decode d = .ok i ∧ i.mnemonic = r.mnemonic) := by
    intro r hr
    rw [selects_iff_wellFormed d r hr, wellFormed_iff_exists_decode, ← exists_and_left]
    refine exists_congr fun i => ?_
    rw [and_comm]
    refine and_congr_right fun decoded => ?_
    rw [i.mnemonic_eq_iff r hr, decode_eq_ok_iff_descriptor.mp decoded]
  refine ⟨row, fun unselected i decoded => ?_⟩
  obtain ⟨r, hr, named⟩ := i.exists_row
  have selected := (row r hr).mpr ⟨i, decoded, named⟩
  rw [unselected r hr] at selected
  exact Bool.false_ne_true selected

/-! ## An illegal descriptor at the command port -/

namespace Machine

theorem submitDescriptor_of_illegal {d : DescriptorBits} (illegal : (Descriptor.ofBits d).wellFormed = false) (s : State) :
    submitDescriptor d s = issue (firstWord d) [(.illegal, true)] (fun t => t) s := by
  cases decoded : decode d with
  | ok i =>
    rw [wellFormed_iff_exists_decode.mpr ⟨i, decoded⟩] at illegal
    cases illegal
  | error e => simp only [submitDescriptor, decoded]

/-- Settles O7: an illegal descriptor does not decode, and the port answers it with the one fault `Illegal`. -/
theorem illegalDescriptorHalts : Obligations.IllegalDescriptorHalts := by
  intro s d rest running moves illegal
  let s' : State := { s with moves := rest }
  calc step s = submitDescriptor d s' := step_of_moves moves
    _ = issue (firstWord d) [(.illegal, true)] (fun t => t) s' := submitDescriptor_of_illegal illegal s'
    _ = .next (s'.takeFault .illegal (firstWord d)) := issue_faults (s := s') running rfl _ _

end Machine

end Sys2Proof
end

section
/-! PROOFS. The constants of the two formats and the data-carrying bits of the left masks (spec/40_pixelformat_masks.md R70 to
R79), on the tiling of the 16-bit mask (R73, R74) that `testBit_leftMask` states. -/

namespace Sys2Proof.Machine

/-! ## The data-carrying bits -/

/-- The 16-bit left mask has the bits from `bitshift` up (R72, R79). -/
theorem getLsbD_leftMask16 (f : Format) (j : Nat) :
    (leftMask16 f).getLsbD j = (decide (j < 16) && decide (bitshift f ≤ j)) := by
  have full : leftMask16 f = BitVec.allOnes 16 <<< bitshift f := rfl
  rw [full, BitVec.getLsbD_shiftLeft, BitVec.getLsbD_allOnes]
  by_cases inside : j < 16
  · simp [inside, show j - bitshift f < 16 by omega, ← decide_not]
  · simp [inside]

/-- Settles O20: the mask is the 16-bit mask tiled, and that mask has the bits from `bitshift` up. -/
theorem leftMaskMarksTheDataBits : Obligations.LeftMaskMarksTheDataBits := by
  intro f k j
  have lane : j % 16 < 16 := Nat.mod_lt j (by decide)
  rw [testBit_leftMask, getLsbD_leftMask16, decide_eq_true lane, Bool.true_and]

/-! ## The table of values -/

/-- The right mask, shifted left in unbounded naturals, loses nothing to the width (R76). -/
theorem rightMask16_shiftLeft_lt (f : Format) : (rightMask16 f).toNat <<< bitshift f < 2 ^ 16 := by
  cases f <;> decide

/-- Shifting the right mask left by `bitshift` gives the left mask (R76). -/
theorem leftMask16_toNat_eq_rightMask16_shiftLeft (f : Format) :
    (leftMask16 f).toNat = (rightMask16 f).toNat <<< bitshift f := by
  cases f <;> decide

/-- Settles O19: each value of R77 is computed from R70 to R75, and R76 holds of the two formats. -/
theorem formatConstants : Obligations.FormatConstants :=
  ⟨by decide, by decide, fun f => ⟨leftMask16_toNat_eq_rightMask16_shiftLeft f, rightMask16_shiftLeft_lt f⟩⟩

end Sys2Proof.Machine
end

section
/-! PROOFS. What all four transforms do to the lanes of the whole groups (spec/20_memory.md R31 to R34; R81, R86, R91,
R93), and what that says of two engines with different `G` (spec/44_kernels_dispatch.md R102). -/

namespace Sys2Proof.Machine

/-! ## A lane is its two bytes -/

/-- The high byte of a lane stands at the higher address (R31). -/
theorem State.lane_eq_append (s : State) (a : Nat) : s.lane a = s.fbByte (a + 1) ++ s.fbByte a := by
  apply BitVec.eq_of_toNat_eq
  rw [State.lane_toNat, BitVec.toNat_append, ← Nat.shiftLeft_add_eq_or_of_lt (s.fbByte a).isLt, Nat.shiftLeft_eq]
  omega

/-- A lane determines its two bytes. -/
theorem State.lane_eq_append_iff {s : State} {a : Nat} {hi lo : Byte} :
    s.lane a = hi ++ lo ↔ s.fbByte (a + 1) = hi ∧ s.fbByte a = lo := by
  rw [State.lane_eq_append]
  refine ⟨fun h => ?_, fun ⟨high, low⟩ => by rw [high, low]⟩
  have high := congrArg (BitVec.extractLsb' 8 8) h
  have low := congrArg (BitVec.extractLsb' 0 8) h
  rw [BitVec.extractLsb'_append_eq_left, BitVec.extractLsb'_append_eq_left] at high
  rw [BitVec.extractLsb'_append_eq_right, BitVec.extractLsb'_append_eq_right] at low
  exact ⟨high, low⟩

/-- Two states that agree on a lane agree on both of its bytes: a byte at offset `d` lies in lane `d / 2`. -/
theorem State.fbByte_eq_of_lane_eq {s s' : State} {a d : Nat}
    (h : s.lane (a + 2 * (d / 2)) = s'.lane (a + 2 * (d / 2))) :
    s.fbByte (a + d) = s'.fbByte (a + d) := by
  rw [s'.lane_eq_append, State.lane_eq_append_iff] at h
  obtain ⟨high, low⟩ := h
  rcases Nat.mod_two_eq_zero_or_one d with even | odd
  · rwa [show a + d = a + 2 * (d / 2) by omega]
  · rwa [show a + d = a + 2 * (d / 2) + 1 by omega]

/-! ## MASK lane by lane -/

/-- `8 * G = 16 * 2^k` for the mask's level `k` (R86). -/
theorem groupBytes_eq_maskLevel (c : Config) : groupBytes c = 2 * 2 ^ groupMaskLevel c := by
  unfold groupBytes groupMaskLevel
  cases c.group <;> rfl

/-- The low two bytes of a number are its low 16 bits. -/
theorem append_ofNat_bytes (m : Nat) : BitVec.ofNat 8 (m >>> 8) ++ BitVec.ofNat 8 m = BitVec.ofNat 16 m := by
  apply BitVec.eq_of_toNat_eq
  rw [BitVec.toNat_append, ← Nat.shiftLeft_add_eq_or_of_lt (BitVec.ofNat 8 m).isLt, Nat.shiftLeft_eq,
    BitVec.toNat_ofNat, BitVec.toNat_ofNat, BitVec.toNat_ofNat, Nat.shiftRight_eq_div_pow]
  omega

/-- The mask's two bytes at the place of lane `i` in its group are the 16-bit mask (R86, R87). -/
theorem leftMask_lane_bytes (f : Format) (k i : Nat) :
    BitVec.ofNat 8 (leftMask f k >>> (8 * ((2 * i + 1) % (2 * 2 ^ k)))) ++
      BitVec.ofNat 8 (leftMask f k >>> (8 * (2 * i % (2 * 2 ^ k)))) = leftMask16 f := by
  have high : 8 * ((2 * i + 1) % (2 * 2 ^ k)) = 16 * (i % 2 ^ k) + 8 := by
    rw [Nat.mod_mul, show (2 * i + 1) / 2 = i by omega]
    omega
  have low : 8 * (2 * i % (2 * 2 ^ k)) = 16 * (i % 2 ^ k) := by
    rw [Nat.mul_mod_mul_left]
    omega
  rw [high, low, Nat.shiftRight_add, append_ofNat_bytes]
  apply BitVec.eq_of_toNat_eq
  rw [BitVec.toNat_ofNat, leftMask_lane f (Nat.mod_lt i (by positivity))]

/-- The group loop of MASK ANDs every lane of every whole group with the 16-bit mask (R86, R87). -/
theorem State.maskGroups_lane (s : State) (f : Format) {addr len i : Nat} (converted : i < convertedLanes s.cfg len) :
    (s.maskGroups (leftMask f (groupMaskLevel s.cfg)) addr len).lane (addr + 2 * i) =
      s.lane (addr + 2 * i) &&& leftMask16 f := by
  have inside : 2 * i + 1 < groupBytes s.cfg * groupCount s.cfg len := by
    have := two_mul_convertedLanes s.cfg len
    omega
  rw [State.lane_eq_append_iff.mpr ⟨State.maskGroups_fbByte _ _ _ _ _, State.maskGroups_fbByte _ _ _ _ _⟩,
    if_pos (by omega), if_pos (by omega), ← BitVec.and_append, ← State.lane_eq_append, Nat.add_assoc,
    Nat.add_sub_cancel_left, Nat.add_sub_cancel_left, groupBytes_eq_maskLevel, leftMask_lane_bytes]

/-! ## The four transforms as lane functions -/

/-- The lane function of a transform (R81, R87, R91, R93). -/
def Transform.lane : Transform → Format → Sample → Sample
  | .unpack, f, v => unpackLane f v
  | .mask, f, v => v &&& leftMask16 f
  | .shl, f, v => shlLane f v
  | .pad, f, v => padLane f v

/-- An accepted transform replaces every lane of every whole group by its image. -/
theorem effectOf_transform_lane (x : Transform) (f : Format) {addr len : Word} {s : State} {i : Nat}
    (converted : i < s.wholeLanes len) :
    (effectOf (x.instr f addr len) s).lane (addr.toNat + 2 * i) = x.lane f (s.lane (addr.toNat + 2 * i)) := by
  cases x with
  | unpack | shl | pad => exact s.mapLanes_lane _ _ _ i converted
  | mask => exact s.maskGroups_lane f converted

/-- A transform in range completes: every lane of every whole group is replaced by its image, every other byte of FB and
the rest of the state is unchanged (R33 to R36). -/
theorem exec_transform_converts (x : Transform) (f : Format) {addr len : Word} {s : State} (running : s.NoFault)
    (inRange : addr.toNat + len.toNat ≤ s.cfg.fbBytes) :
    ∃ t, exec (x.instr f addr len) s = .next t ∧
      (∀ i, i < s.wholeLanes len → t.lane (addr.toNat + 2 * i) = x.lane f (s.lane (addr.toNat + 2 * i))) ∧
      (∀ a, a < addr.toNat ∨ addr.toNat + s.wholeBytes len ≤ a → t.fbByte a = s.fbByte a) ∧
      s.SameExceptFb t :=
  ⟨_, exec_transform x f running inRange, fun _ => effectOf_transform_lane x f,
    fun _ => effectOf_transform_outside x f, effectOf_transform_sameExceptFb x f addr len s⟩

/-! ## Two group sizes -/

/-- The same state in an engine with group size `g`. -/
def State.withGroup (s : State) (g : GroupSize) : State := { s with cfg := { s.cfg with group := g } }

/-- The group size decides nothing but how many bytes an accepted transform converts: where a transform is discarded or
faults, it does so under every group size, and leaves FB alone (R101, R102). -/
theorem exec_transform_withGroup (x : Transform) (f : Format) {addr len : Word} {s t t' : State} {g : GroupSize}
    (ran : exec (x.instr f addr len) s = .next t) (ran' : exec (x.instr f addr len) (s.withGroup g) = .next t') :
    (t' = t.withGroup g ∧ ∀ a, t'.fbByte a = s.fbByte a) ∨
    (t = effectOf (x.instr f addr len) s ∧ t' = effectOf (x.instr f addr len) (s.withGroup g)) := by
  have checks : checksOf (x.instr f addr len) (s.withGroup g) = checksOf (x.instr f addr len) s := by cases x <;> rfl
  rw [exec_eq_issue] at ran ran'
  rw [checks] at ran'
  rcases issue_cases (finfoOf (x.instr f addr len)) (checksOf (x.instr f addr len) s) (effectOf (x.instr f addr len)) s
    with ⟨halted, e⟩ | ⟨running, c, failed, e⟩ | ⟨running, passed, e⟩ <;> rw [e] at ran <;> cases ran
  · rw [issue_halted (s := s.withGroup g) halted] at ran'
    cases ran'
    exact .inl ⟨rfl, fun _ => rfl⟩
  · rw [issue_faults (s := s.withGroup g) running failed] at ran'
    cases ran'
    exact .inl ⟨rfl, fun _ => rfl⟩
  · rw [issue_runs (s := s.withGroup g) running passed] at ran'
    cases ran'
    exact .inr ⟨rfl, rfl⟩

/-- A byte that lies in a whole group under both group sizes gets the same value under both (R84, R102). -/
theorem effectOf_transform_withGroup (x : Transform) (f : Format) {addr len : Word} {s : State} {g : GroupSize}
    {d : Nat} (inside : d < s.wholeBytes len) (inside' : d < (s.withGroup g).wholeBytes len) :
    (effectOf (x.instr f addr len) (s.withGroup g)).fbByte (addr.toNat + d) =
      (effectOf (x.instr f addr len) s).fbByte (addr.toNat + d) := by
  have converted {u : State} (h : d < u.wholeBytes len) : d / 2 < u.wholeLanes len := by
    have whole : 2 * u.wholeLanes len = u.wholeBytes len := two_mul_convertedLanes u.cfg len.toNat
    omega
  apply State.fbByte_eq_of_lane_eq
  rw [effectOf_transform_lane x f (converted inside), effectOf_transform_lane x f (converted inside')]
  rfl

theorem State.SameExceptFb.eq_with_fb {s t : State} (h : s.SameExceptFb t) : t = { s with fb := t.fb } := by
  unfold State.SameExceptFb at h
  rw [← h]

/-- Settles O32: under either size a byte of a whole group gets its lane's image, any other byte stays, and the two
sizes differ on what is a whole group in the stated interval only. -/
theorem kernelWidthsAgree : Obligations.KernelWidthsAgree := by
  intro x f addr len s t t' g16 ran ran'
  have whole : s.wholeBytes len = 16 * (len.toNat / 16) := by simp [State.wholeBytes, groupBytes, g16]
  have whole' : (s.withGroup .g32).wholeBytes len = 32 * (len.toNat / 32) := rfl
  rcases exec_transform_withGroup (g := .g32) x f ran ran' with ⟨rfl, kept⟩ | ⟨rfl, rfl⟩
  · exact ⟨fun _ _ => rfl, fun _ _ => rfl, fun a _ => kept a, rfl⟩
  have outside {a : Nat} := effectOf_transform_outside x f (addr := addr) (len := len) (s := s) (a := a)
  have outside' {a : Nat} := effectOf_transform_outside x f (addr := addr) (len := len) (s := s.withGroup .g32) (a := a)
  have agree (a : Nat) (h : ¬ (addr.toNat + 32 * (len.toNat / 32) ≤ a ∧ a < addr.toNat + 16 * (len.toNat / 16))) :
      (effectOf (x.instr f addr len) (s.withGroup .g32)).fbByte a = (effectOf (x.instr f addr len) s).fbByte a := by
    by_cases inside : addr.toNat ≤ a ∧ a < addr.toNat + 32 * (len.toNat / 32)
    · obtain ⟨d, rfl⟩ := Nat.exists_eq_add_of_le inside.1
      exact effectOf_transform_withGroup x f (by omega) (by omega)
    · rw [outside (by omega), outside' (by omega)]
      rfl
  refine ⟨agree, fun multiple a => agree a (by omega), fun a h => outside' (.inr h), ?_⟩
  rw [(effectOf_transform_sameExceptFb x f addr len (s.withGroup .g32)).eq_with_fb,
    (effectOf_transform_sameExceptFb x f addr len s).eq_with_fb]
  rfl

end Sys2Proof.Machine
end

section
/-! PROOFS. UNPACK (spec/41_unpack.md): its lane function, the command, and the command byte by byte. -/

namespace Sys2Proof.Machine

theorem bitshift_add_sampleBits (f : Format) : bitshift f + sampleBits f = 16 := by cases f <;> rfl

/-! ## The lane function -/

/-- The mask clears exactly the bits the shift discards (R82). -/
theorem unpackLane_eq_shift (f : Format) (v : Sample) : unpackLane f v = v >>> bitshift f := by
  apply BitVec.eq_of_getLsbD_eq
  intro j _
  rw [unpackLane, BitVec.getLsbD_ushiftRight, BitVec.getLsbD_ushiftRight, BitVec.getLsbD_and, getLsbD_leftMask16]
  by_cases inside : bitshift f + j < 16
  · simp [inside]
  · simp [BitVec.getLsbD_of_ge v _ (Nat.not_lt.mp inside)]

/-- The high bits of an unpacked lane are zero (R82). -/
theorem getLsbD_unpackLane_high {f : Format} {j : Nat} (high : sampleBits f ≤ j) (v : Sample) :
    (unpackLane f v).getLsbD j = false := by
  have := bitshift_add_sampleBits f
  rw [unpackLane_eq_shift, BitVec.getLsbD_ushiftRight]
  exact BitVec.getLsbD_of_ge v _ (by omega)

/-- An unpacked lane fits the sample (R82). -/
theorem unpackLane_toNat_le (f : Format) (v : Sample) : (unpackLane f v).toNat ≤ (rightMask16 f).toNat := by
  have bound : (unpackLane f v).toNat < 2 ^ sampleBits f :=
    Nat.lt_pow_two_of_testBit _ fun j high => getLsbD_unpackLane_high high v
  have mask : (rightMask16 f).toNat = 2 ^ sampleBits f - 1 := by cases f <;> rfl
  omega

/-- Settles O21: the three claims of R82. -/
theorem unpackedLaneIsTheShiftedLane : Obligations.UnpackedLaneIsTheShiftedLane := fun f v =>
  ⟨unpackLane_eq_shift f v, unpackLane_toNat_le f v, fun _ high => getLsbD_unpackLane_high high v⟩

/-! ## The command -/

/-- Settles O26: UNPACK is the transform whose lane function masks and shifts. -/
theorem unpackConvertsWholeGroups : Obligations.UnpackConvertsWholeGroups := fun f _ _ _ running inRange =>
  exec_transform_converts .unpack f running inRange

/-! ## Byte by byte -/

/-- Shifting right moves the low `b` bits of the high byte to the top of the low byte. -/
theorem append_ushiftRight (hi lo : Byte) {b : Nat} (le : b ≤ 8) :
    (hi ++ lo) >>> b = (hi >>> b) ++ (hi <<< (8 - b) ||| lo >>> b) := by
  apply BitVec.eq_of_getLsbD_eq
  intro j _
  simp only [BitVec.getLsbD_ushiftRight, BitVec.getLsbD_append, BitVec.getLsbD_or, BitVec.getLsbD_shiftLeft]
  by_cases high : 8 ≤ j
  · rw [if_neg (by omega), if_neg (by omega), show b + j - 8 = b + (j - 8) by omega]
  · rw [if_pos (show j < 8 by omega)]
    by_cases crossing : b + j < 8
    · simp [crossing, show j < 8 - b by omega]
    · simp [crossing, show ¬ j < 8 - b by omega, show j < 8 by omega, show b + j - 8 = j - (8 - b) by omega,
        BitVec.getLsbD_of_ge lo _ (Nat.not_lt.mp crossing)]

/-- Settles O33: the bytes of the shifted lane, which the lane determines. -/
theorem unpackByteView : Obligations.UnpackByteView := by
  intro f addr len s t i running inRange ran converted
  obtain ⟨u, ran', lanes, -, -⟩ := exec_transform_converts .unpack f running inRange
  cases ran.symm.trans ran'
  have lane := lanes i converted
  have le : bitshift f ≤ 8 := by cases f <;> decide
  rw [Transform.lane, unpackLane_eq_shift, State.lane_eq_append s, append_ushiftRight _ _ le,
    State.lane_eq_append_iff] at lane
  exact lane.symm

end Sys2Proof.Machine
end

section
/-! PROOFS. MASK (spec/42_mask.md): the command, the command byte by byte, and what a transform that follows another one
leaves in FB. -/

namespace Sys2Proof.Machine

/-! ## The command -/

/-- Settles O27: MASK is the transform whose lane function ANDs with the 16-bit mask. -/
theorem maskZeroesThePadding : Obligations.MaskZeroesThePadding := fun f _ _ _ running inRange =>
  exec_transform_converts .mask f running inRange

/-! ## Byte by byte -/

/-- The low byte of the 16-bit left mask (R87). -/
def maskLowByte : Format → Byte
  | .raw10 => 0xC0
  | .raw12 => 0xF0

/-- The left mask clears bits of the low byte only (R87). -/
theorem leftMask16_eq_append (f : Format) : leftMask16 f = BitVec.allOnes 8 ++ maskLowByte f := by
  cases f <;> rfl

/-- An AND with the left mask keeps the high byte (R87). -/
theorem append_and_leftMask16 (f : Format) (hi lo : Byte) :
    (hi ++ lo) &&& leftMask16 f = hi ++ (lo &&& maskLowByte f) := by
  rw [leftMask16_eq_append, BitVec.and_append, BitVec.and_allOnes]

/-- Settles O34: the bytes of the masked lane, which the lane determines; no step asks where `addr` stands. -/
theorem maskByteView : Obligations.MaskByteView := by
  intro f addr len s t i running inRange ran converted
  obtain ⟨u, ran', lanes, -, -⟩ := exec_transform_converts .mask f running inRange
  cases ran.symm.trans ran'
  have lane : t.lane (addr.toNat + 2 * i) = s.lane (addr.toNat + 2 * i) &&& leftMask16 f := lanes i converted
  refine ⟨lane, ?_⟩
  rw [State.lane_eq_append s, append_and_leftMask16, State.lane_eq_append_iff] at lane
  obtain ⟨high, low⟩ := lane
  exact ⟨by cases f <;> exact low, high⟩

/-! ## One transform after another -/

/-- A transform that is not accepted leaves the engine halted and every byte of FB as it was (R133, R134). -/
theorem exec_transform_rejected (x : Transform) (f : Format) {addr len : Word} {s t : State}
    (rejected : ¬ (s.NoFault ∧ addr.toNat + len.toNat ≤ s.cfg.fbBytes))
    (ran : exec (x.instr f addr len) s = .next t) : t.fault = true ∧ ∀ a, t.fbByte a = s.fbByte a := by
  have checks : checksOf (x.instr f addr len) s = [(.range, s.outOfRange addr.toNat len.toNat)] := by cases x <;> rfl
  rw [exec_eq_issue] at ran
  rcases issue_cases (finfoOf (x.instr f addr len)) (checksOf (x.instr f addr len) s) (effectOf (x.instr f addr len)) s
    with ⟨halted, e⟩ | ⟨_, c, _, e⟩ | ⟨running, passed, e⟩ <;> rw [e] at ran <;> cases ran
  · exact ⟨halted, fun _ => rfl⟩
  · exact ⟨rfl, fun _ => rfl⟩
  · have inRange : s.outOfRange addr.toNat len.toNat = false :=
      firstFault_eq_none passed (.range, s.outOfRange addr.toNat len.toNat) (by simp [checks])
    exact absurd ⟨running, by simpa [State.outOfRange] using inRange⟩ rejected

/-- On the bytes, two effects one after the other are one, where the lane functions are. -/
theorem effectOf_transform_comp {x y z : Transform} {f : Format} (comp : ∀ v, y.lane f (x.lane f v) = z.lane f v)
    (addr len : Word) (s : State) (a : Nat) :
    (effectOf (y.instr f addr len) (effectOf (x.instr f addr len) s)).fbByte a =
      (effectOf (z.instr f addr len) s).fbByte a := by
  obtain ⟨cfg, -⟩ := (effectOf_transform_sameExceptFb x f addr len s).fields
  have bytes : (effectOf (x.instr f addr len) s).wholeBytes len = s.wholeBytes len := by simp only [State.wholeBytes, cfg]
  have lanes : (effectOf (x.instr f addr len) s).wholeLanes len = s.wholeLanes len := by simp only [State.wholeLanes, cfg]
  by_cases outside : a < addr.toNat ∨ addr.toNat + s.wholeBytes len ≤ a
  · rw [effectOf_transform_outside y f (bytes ▸ outside), effectOf_transform_outside x f outside,
      effectOf_transform_outside z f outside]
  · obtain ⟨d, rfl⟩ := Nat.exists_eq_add_of_le (show addr.toNat ≤ a by omega)
    have whole : 2 * s.wholeLanes len = s.wholeBytes len := two_mul_convertedLanes s.cfg len.toNat
    have converted : d / 2 < s.wholeLanes len := by omega
    apply State.fbByte_eq_of_lane_eq
    rw [effectOf_transform_lane y f (lanes ▸ converted), effectOf_transform_lane x f converted,
      effectOf_transform_lane z f converted, comp]

/-- As commands, of any state: where the lane functions of `x` and then `y` compose to that of `z`, `y` after `x` leaves the
bytes of `z`. One check decides for all three, and after a fault no command changes a byte. -/
theorem exec_transform_comp {x y z : Transform} {f : Format} (comp : ∀ v, y.lane f (x.lane f v) = z.lane f v)
    {addr len : Word} {s p t u : State} (first : exec (x.instr f addr len) s = .next p)
    (second : exec (y.instr f addr len) p = .next t) (alone : exec (z.instr f addr len) s = .next u) (a : Nat) :
    t.fbByte a = u.fbByte a := by
  by_cases accepted : s.NoFault ∧ addr.toNat + len.toNat ≤ s.cfg.fbBytes
  · obtain ⟨running, inRange⟩ := accepted
    rw [exec_transform x f running inRange] at first
    rw [exec_transform z f running inRange] at alone
    cases first
    cases alone
    obtain ⟨cfg, -, -, -, -, fault, -⟩ := (effectOf_transform_sameExceptFb x f addr len s).fields
    rw [exec_transform y f (fault.trans running) (cfg ▸ inRange)] at second
    cases second
    exact effectOf_transform_comp comp addr len s a
  · obtain ⟨halted, kept⟩ := exec_transform_rejected x f accepted first
    obtain ⟨-, kept'⟩ := exec_transform_rejected y f (fun ⟨running, _⟩ => by simp [running] at halted) second
    obtain ⟨-, kept''⟩ := exec_transform_rejected z f accepted alone
    rw [kept', kept, kept'']

/-- UNPACK masks its lane itself (R88). -/
theorem unpackLane_and_leftMask16 (f : Format) (v : Sample) : unpackLane f (v &&& leftMask16 f) = unpackLane f v := by
  rw [unpackLane, unpackLane, BitVec.and_assoc, BitVec.and_self]

/-- The mask is idempotent (R86). -/
theorem and_leftMask16_twice (f : Format) (v : Sample) : v &&& leftMask16 f &&& leftMask16 f = v &&& leftMask16 f := by
  rw [BitVec.and_assoc, BitVec.and_self]

/-- Settles O35: MASK composes with UNPACK to UNPACK and with itself to itself, lane by lane, hence as commands. -/
theorem maskBeforeUnpackChangesNothing : Obligations.MaskBeforeUnpackChangesNothing := fun f _ _ _ _ masked =>
  ⟨fun _ _ second alone => exec_transform_comp (x := .mask) (y := .unpack) (z := .unpack)
      (unpackLane_and_leftMask16 f) masked second alone,
    fun _ second => exec_transform_comp (x := .mask) (y := .mask) (z := .mask)
      (and_leftMask16_twice f) masked second masked⟩

end Sys2Proof.Machine
end

section
/-! PROOFS. SHL and PAD (spec/43_shift_left_pad.md): their lane functions bit by bit, what they and UNPACK undo of one
another, and the two commands. -/

namespace Sys2Proof.Machine

/-! ## The lane functions bit by bit -/

/-- SHL's lane as arithmetic (R91). -/
theorem shlLane_toNat (f : Format) (v : Sample) : (shlLane f v).toNat = v.toNat * 2 ^ bitshift f % 2 ^ 16 := by
  rw [shlLane, BitVec.toNat_shiftLeft, Nat.shiftLeft_eq]

/-- A shifted lane has zeros below `bitshift` and the old bits above (R91). -/
theorem getLsbD_shlLane (f : Format) (v : Sample) (j : Nat) :
    (shlLane f v).getLsbD j = (decide (j < 16) && !decide (j < bitshift f) && v.getLsbD (j - bitshift f)) :=
  BitVec.getLsbD_shiftLeft v _

/-- The fill of a padded lane is shorter than the sample it copies from (R93). -/
theorem bitshift_le_sampleBits (f : Format) : bitshift f ≤ sampleBits f := by cases f <;> decide

/-- A padded lane bit by bit: from `bitshift` up the old bits, as in a shifted lane, and below them a copy of the
shifted lane's top bits (R93). -/
theorem getLsbD_padLane (f : Format) (v : Sample) {j : Nat} (inside : j < 16) :
    (padLane f v).getLsbD j =
      if bitshift f ≤ j then v.getLsbD (j - bitshift f) else v.getLsbD (j + sampleBits f - bitshift f) := by
  have width := bitshift_add_sampleBits f
  have fits := bitshift_le_sampleBits f
  rw [padLane, BitVec.getLsbD_or, BitVec.getLsbD_ushiftRight, getLsbD_shlLane, getLsbD_shlLane,
    Nat.add_comm (sampleBits f)]
  by_cases kept : bitshift f ≤ j
  · simp [inside, kept, show ¬ j + sampleBits f < 16 by omega]
  · simp [kept, show j < bitshift f by omega, show j + sampleBits f < 16 by omega,
      show bitshift f ≤ j + sampleBits f by omega]

/-- The right mask has the bits below `sampleBits` (R75). -/
theorem getLsbD_rightMask16 (f : Format) (j : Nat) : (rightMask16 f).getLsbD j = decide (j < sampleBits f) := by
  have width := bitshift_add_sampleBits f
  rw [rightMask16, BitVec.getLsbD_ofNat, Nat.testBit_two_pow_sub_one, ← Bool.decide_and]
  exact decide_eq_decide.mpr (by omega)

/-! ## What the lane functions undo of one another -/

/-- SHL discards the bits above the sample (R91, D24). -/
theorem shlLane_rightJustify (f : Format) (v : Sample) : shlLane f (rightJustify f v) = shlLane f v := by
  have width := bitshift_add_sampleBits f
  have fits := bitshift_le_sampleBits f
  apply BitVec.eq_of_getLsbD_eq
  intro j inside
  rw [getLsbD_shlLane, getLsbD_shlLane, rightJustify, BitVec.getLsbD_and, getLsbD_rightMask16,
    decide_eq_true (show j - bitshift f < sampleBits f by omega), Bool.and_true]

/-- PAD depends on the sample's bits only, because the shift does (R93, D24). -/
theorem padLane_rightJustify (f : Format) (v : Sample) : padLane f (rightJustify f v) = padLane f v := by
  rw [padLane, padLane, shlLane_rightJustify]

/-- A value that fits the sample is right-justified as it stands (R75). -/
theorem rightJustify_of_le {f : Format} {v : Sample} (fits : v.toNat ≤ (rightMask16 f).toNat) :
    rightJustify f v = v := by
  have mask : (rightMask16 f).toNat = 2 ^ sampleBits f - 1 := by cases f <;> rfl
  have positive : 0 < 2 ^ sampleBits f := by positivity
  apply BitVec.eq_of_toNat_eq
  rw [rightJustify, BitVec.toNat_and, mask]
  exact Nat.and_two_pow_sub_one_of_lt_two_pow (by omega)

/-- UNPACK after SHL right-justifies (R92). -/
theorem unpackLane_shlLane (f : Format) (v : Sample) : unpackLane f (shlLane f v) = rightJustify f v := by
  have width := bitshift_add_sampleBits f
  apply BitVec.eq_of_getLsbD_eq
  intro j _
  rw [unpackLane_eq_shift, BitVec.getLsbD_ushiftRight, getLsbD_shlLane, rightJustify, BitVec.getLsbD_and,
    getLsbD_rightMask16]
  simp [show bitshift f + j < 16 ↔ j < sampleBits f by omega, Bool.and_comm]

/-- SHL after UNPACK masks: two opposite shifts clear the bits shifted out (R92). -/
theorem shlLane_unpackLane (f : Format) (v : Sample) : shlLane f (unpackLane f v) = v &&& leftMask16 f := by
  rw [unpackLane_eq_shift]
  exact BitVec.shiftLeft_ushiftRight

/-- Masking a padded lane clears exactly the fill (R95). -/
theorem padLane_and_leftMask16 (f : Format) (v : Sample) : padLane f v &&& leftMask16 f = shlLane f v := by
  apply BitVec.eq_of_getLsbD_eq
  intro j inside
  rw [BitVec.getLsbD_and, getLsbD_padLane f v inside, getLsbD_leftMask16, getLsbD_shlLane]
  by_cases kept : bitshift f ≤ j
  · simp [inside, kept]
  · simp [kept, show j < bitshift f by omega]

/-- UNPACK discards the fill of PAD, hence right-justifies after it as after SHL (R94). -/
theorem unpackLane_padLane (f : Format) (v : Sample) : unpackLane f (padLane f v) = rightJustify f v := by
  rw [← unpackLane_and_leftMask16, padLane_and_leftMask16, unpackLane_shlLane]

/-- Settles O22: the claims of R92, R94 and R95; the last one is PAD's definition (R93). -/
theorem laneFunctionsInvertEachOther : Obligations.LaneFunctionsInvertEachOther := fun f v =>
  ⟨fun fits => (unpackLane_shlLane f v).trans (rightJustify_of_le fits),
    shlLane_unpackLane f v,
    (congrArg (unpackLane f) (padLane_rightJustify f v)).trans (unpackLane_padLane f v),
    padLane_and_leftMask16 f v,
    rfl⟩

/-- Settles O23: the two literals are computed, and PAD sees the right-justified value only. -/
theorem padLiterals : Obligations.PadLiterals :=
  ⟨by decide, by decide, fun f v => (padLane_rightJustify f v).symm⟩

/-! ## The commands -/

/-- Settles O28: SHL is the transform whose lane function shifts left. -/
theorem shlShiftsWholeGroups : Obligations.ShlShiftsWholeGroups := by
  intro f addr len s running inRange
  obtain ⟨t, ran, lanes, outside, rest⟩ := exec_transform_converts .shl f running inRange
  refine ⟨t, ran, fun i converted => ?_, outside, rest⟩
  rw [lanes i converted]
  exact shlLane_toNat f _

/-- Settles O29: PAD is the transform whose lane function shifts left and fills. -/
theorem padFillsWholeGroups : Obligations.PadFillsWholeGroups := by
  intro f addr len s running inRange
  obtain ⟨t, ran, lanes, outside, rest⟩ := exec_transform_converts .pad f running inRange
  refine ⟨t, ran, fun i converted j inside => ?_, outside, rest⟩
  rw [lanes i converted]
  exact getLsbD_padLane f _ inside

/-- Settles O36: SHL after UNPACK masks and MASK after PAD shifts, lane by lane, hence as commands. -/
theorem transformsComposeAsTheirLanes : Obligations.TransformsComposeAsTheirLanes := fun f _ _ _ =>
  ⟨fun _ _ _ first second alone => exec_transform_comp (x := .unpack) (y := .shl) (z := .mask)
      (shlLane_unpackLane f) first second alone,
    fun _ _ _ first second alone => exec_transform_comp (x := .pad) (y := .mask) (z := .shl)
      (padLane_and_leftMask16 f) first second alone⟩

end Sys2Proof.Machine
end

section
/-! PROOFS. The accumulator commands where they are accepted (spec/45_accumulator.md R113 to R123): what each leaves in ACC,
in FB and in the session, and that nothing else changes. -/

namespace Sys2Proof.Machine

/-! ## Accepted commands -/

theorem firstFault_of_all_pass {checks : List (FaultCause × Bool)} (h : ∀ e ∈ checks, e.2 = false) :
    firstFault checks = none := by
  induction checks with
  | nil => rfl
  | cons e rest ih =>
    obtain ⟨passes, others⟩ := List.forall_mem_cons.mp h
    simp only [firstFault, passes, ih others, Bool.false_eq_true, if_false]

/-- A command that is not halted and passes all its checks runs (R131, R141). -/
theorem exec_of_all_pass {i : Instr} {s : State} (running : s.NoFault) (pass : ∀ e ∈ checksOf i s, e.2 = false) :
    exec i s = .next (effectOf i s) := by
  rw [exec_eq_issue]
  exact issue_runs running (firstFault_of_all_pass pass) _ _

theorem oddAddress_eq_false {addr : Word} (even : addr.toNat % 2 = 0) : oddAddress addr = false := by
  simp [oddAddress, even]

theorem oddLength_eq_false {len : Word} (even : len.toNat % 2 = 0) : oddLength len = false := by
  simp [oddLength, even]

theorem State.noSession_eq_false {s : State} (opened : s.accValid = true) : s.noSession = false := by
  simp [State.noSession, opened]

theorem State.outOfRange_eq_false {s : State} {addr n : Nat} (inRange : addr + n ≤ s.cfg.fbBytes) :
    s.outOfRange addr n = false := by
  simp [State.outOfRange, inRange]

theorem State.overCapacity_eq_false {s : State} {len : Nat} (fits : len / 2 ≤ s.cfg.accWords) :
    s.overCapacity len = false := by
  simp [State.overCapacity, fits]

theorem State.lengthDiffers_eq_false {s : State} {len : Nat} (length : len / 2 = s.accLen.toNat) :
    s.lengthDiffers len = false := by
  simp [State.lengthDiffers, length]

/-! ## The two loads -/

section Loads

variable {addr len : Word} {s : State} (running : s.NoFault) (evenAddr : addr.toNat % 2 = 0)
  (evenLen : len.toNat % 2 = 0) (inRange : addr.toNat + len.toNat ≤ s.cfg.fbBytes)
  (fits : len.toNat / 2 ≤ s.cfg.accWords)
include evenAddr evenLen inRange fits

/-- The checks of LDACC, which are those of LDACCU too. -/
theorem load_checks_pass (f : Format) : ∀ e ∈ checksOf (.ldacc f addr len) s, e.2 = false := by
  simp [checksOf, oddAddress_eq_false evenAddr, oddLength_eq_false evenLen, State.outOfRange_eq_false inRange,
    State.overCapacity_eq_false fits]

include running

theorem exec_ldacc (f : Format) : exec (.ldacc f addr len) s = .next (effectOf (.ldacc f addr len) s) :=
  exec_of_all_pass running (load_checks_pass evenAddr evenLen inRange fits f)

theorem exec_ldaccu (f : Format) : exec (.ldaccu f addr len) s = .next (effectOf (.ldaccu f addr len) s) :=
  exec_of_all_pass running (load_checks_pass evenAddr evenLen inRange fits f)

end Loads

/-- Filling ACC and opening the session over it touches the accumulator only. -/
theorem State.load_sameExceptAccumulator (s : State) (n : Nat) (value : Nat → State → Sample) (f : Format) :
    s.SameExceptAccumulator ((s.fillAcc n value).openSession n f) := by
  obtain ⟨acc, e⟩ := (s.fillAcc_sameExceptSamples n value).exists_acc
  rw [e]
  rfl

/-- `t` is `s` after a load of `n` samples: they hold `values`, the others stay, the session is open over them under the
tag of `f`, and the rest is as it was (R113, R115). -/
structure Loaded (f : Format) (n : Nat) (values : Nat → Sample) (s t : State) : Prop where
  samples : ∀ i, t.accSample i = if i < n then values i else s.accSample i
  length  : t.accLen.toNat = n
  tag     : t.accFmt = f.code
  opened  : t.accValid = true
  rest    : s.SameExceptAccumulator t

/-- The effect both loads share, where the values come from FB; half a length always fits `ACC_LEN`. -/
theorem State.load_loaded {s : State} {value : Nat → State → Sample}
    (own : ∀ i t, s.SameExceptSamples t → value i t = value i s) (f : Format) (len : Word) :
    Loaded f (len.toNat / 2) (fun i => value i s) s
      ((s.fillAcc (len.toNat / 2) value).openSession (len.toNat / 2) f) where
  samples := s.fillAcc_accSample _ value fun i t same _ => own i t same
  length := by
    have bound := len.isLt
    rw [State.openSession_accLen, BitVec.toNat_ofNat, Nat.mod_eq_of_lt (by omega)]
  tag := rfl
  opened := rfl
  rest := s.load_sameExceptAccumulator _ value f

theorem effectOf_ldacc_loaded (f : Format) (addr len : Word) (s : State) :
    Loaded f (len.toNat / 2) (fun i => s.lane (addr.toNat + 2 * i)) s (effectOf (.ldacc f addr len) s) :=
  State.load_loaded (fun i _ same => lane_own (addr.toNat + 2 * i) same) f len

theorem effectOf_ldaccu_loaded (f : Format) (addr len : Word) (s : State) :
    Loaded f (len.toNat / 2) (fun i => ldaccuSample f addr.toNat len.toNat i s) s (effectOf (.ldaccu f addr len) s) :=
  State.load_loaded (fun i _ same => ldaccuSample_own f addr.toNat len.toNat i same) f len

/-- Settles O37: LDACC is a load whose values are the lanes. -/
theorem ldaccLoadsTheLanes : Obligations.LdaccLoadsTheLanes := by
  intro f addr len s running evenAddr evenLen inRange fits
  obtain ⟨samples, length, tag, opened, rest⟩ := effectOf_ldacc_loaded f addr len s
  exact ⟨_, exec_ldacc running evenAddr evenLen inRange fits f, samples, length, tag, opened, rest⟩

/-- The converted lanes are among the loaded ones (R108, R115). -/
theorem State.wholeLanes_le_half (s : State) (len : Word) : s.wholeLanes len ≤ len.toNat / 2 := by
  have whole : 2 * s.wholeLanes len = groupBytes s.cfg * groupCount s.cfg len.toNat := two_mul_convertedLanes _ _
  have le := wholeGroups_le s.cfg len.toNat
  omega

/-- Settles O38: LDACCU is a load whose values are unpacked below `wholeLanes` and the lanes themselves from there on. -/
theorem ldaccuLoadsUnpackedLanes : Obligations.LdaccuLoadsUnpackedLanes := by
  intro f addr len s running evenAddr evenLen inRange fits
  obtain ⟨samples, length, tag, opened, rest⟩ := effectOf_ldaccu_loaded f addr len s
  refine ⟨_, exec_ldaccu running evenAddr evenLen inRange fits f, fun i => ?_, length, tag, opened, rest⟩
  have whole := s.wholeLanes_le_half len
  rw [samples]
  by_cases converted : i < s.wholeLanes len
  · rw [if_pos converted, if_pos (by omega)]
    exact if_pos converted
  · rw [if_neg converted]
    congr 1
    exact if_neg converted

/-! ## Arithmetic on the session -/

/-- Settles O39: ADDACC fills the session's samples with sums, each from its own sample and its lane. -/
theorem addaccAddsEverySample : Obligations.AddaccAddsEverySample := by
  intro addr len s running opened evenAddr evenLen inRange length
  have pass : ∀ e ∈ checksOf (.addacc addr len) s, e.2 = false := by
    simp [checksOf, oddAddress_eq_false evenAddr, oddLength_eq_false evenLen, State.noSession_eq_false opened,
      State.outOfRange_eq_false inRange, State.lengthDiffers_eq_false length]
  refine ⟨_, exec_of_all_pass running pass, fun i => ?_, s.fillAcc_sameExceptSamples _ _⟩
  rw [effectOf, s.fillAcc_accSample _ _ (fun j t same sample => by rw [sample, lane_own _ same]), apply_ite BitVec.toNat,
    BitVec.toNat_add]

/-- Settles O40: DIVACC fills the session's samples with quotients, each from its own sample. -/
theorem divaccDividesEverySample : Obligations.DivaccDividesEverySample := by
  intro k s running opened nonzero
  have pass : ∀ e ∈ checksOf (.divacc k) s, e.2 = false := by
    simpa [checksOf, State.noSession_eq_false opened] using nonzero
  have samples (i : Nat) : (effectOf (.divacc k) s).accSample i =
      if i < s.accLen.toNat then s.accSample i / k else s.accSample i :=
    s.fillAcc_accSample _ _ (fun j t _ sample => by rw [sample]) i
  have positive : 0 < k.toNat := Nat.pos_of_ne_zero fun zero => nonzero (BitVec.eq_of_toNat_eq zero)
  refine ⟨_, exec_of_all_pass running pass, fun i held => ?_, fun i beyond => ?_, s.fillAcc_sameExceptSamples _ _⟩
  · rw [samples, if_pos held, BitVec.toNat_udiv]
    exact ⟨Nat.div_mul_le_self _ _, Nat.lt_mul_of_div_lt (Nat.lt_succ_self _) positive⟩
  · rw [samples, if_neg (by omega)]

/-! ## The store -/

/-- Everything the effect of STACC leaves of FB (R123). -/
theorem effectOf_stacc_fb (addr : Word) (s : State) :
    (∀ i, i < s.accLen.toNat → (effectOf (.stacc addr) s).lane (addr.toNat + 2 * i) = s.accSample i) ∧
      ∀ a, a < addr.toNat ∨ addr.toNat + 2 * s.accLen.toNat ≤ a → (effectOf (.stacc addr) s).fbByte a = s.fbByte a :=
  s.storeAcc_fb addr.toNat s.accLen.toNat

/-- STACC touches FB and the session only: ACC keeps its samples (R123, R124). -/
theorem effectOf_stacc_frame (addr : Word) (s : State) :
    { effectOf (.stacc addr) s with
      fb := s.fb, accValid := s.accValid, accLen := s.accLen, accFmt := s.accFmt } = s := by
  rw [effectOf, (s.storeAcc_sameExceptFb addr.toNat s.accLen.toNat).eq_with_fb]
  rfl

/-- Settles O41: STACC stores the session's samples, then closes the session. -/
theorem staccStoresAndCloses : Obligations.StaccStoresAndCloses := by
  intro addr s running opened evenAddr inRange
  have pass : ∀ e ∈ checksOf (.stacc addr) s, e.2 = false := by
    simp [checksOf, oddAddress_eq_false evenAddr, State.noSession_eq_false opened, State.outOfRange_eq_false inRange]
  obtain ⟨lanes, others⟩ := effectOf_stacc_fb addr s
  exact ⟨_, exec_of_all_pass running pass, lanes, others, rfl, rfl, rfl, effectOf_stacc_frame addr s⟩

end Sys2Proof.Machine
end

section
/-! PROOFS. The accumulator commands whatever they answer: their frames, LDACCU against UNPACK and LDACC (spec/45_accumulator.md
R115, R116), and the format tag, which no command reads (R111). -/

namespace Sys2Proof.Machine

/-! ## Frames -/

/-- Everything a command can answer: the state as it was, when halted; fault entry; its effect, when accepted. -/
theorem exec_cases {i : Instr} {s t : State} (ran : exec i s = .next t) :
    (s.fault = true ∧ t = s) ∨
      (s.fault = false ∧ ∃ c, firstFault (checksOf i s) = some c ∧ t = s.takeFault c (finfoOf i)) ∨
      (s.fault = false ∧ firstFault (checksOf i s) = none ∧ t = effectOf i s) := by
  rw [exec_eq_issue] at ran
  rcases issue_cases (finfoOf i) (checksOf i s) (effectOf i) s
    with ⟨halted, e⟩ | ⟨running, c, failed, e⟩ | ⟨running, passed, e⟩ <;> rw [e] at ran <;> cases ran
  · exact .inl ⟨halted, rfl⟩
  · exact .inr (.inl ⟨running, c, failed, rfl⟩)
  · exact .inr (.inr ⟨running, passed, rfl⟩)

/-- Fault entry in a state that is not halted changes `FAULT` (R133). -/
theorem State.takeFault_fault_ne {s : State} (running : s.fault = false) (c : FaultCause) (w : Word) :
    (s.takeFault c w).fault ≠ s.fault := by
  simp [running]

/-- What `SameExceptAccumulator` says of the state: it is `s` with another accumulator. -/
theorem State.SameExceptAccumulator.eq_with {s t : State} (h : s.SameExceptAccumulator t) :
    t = { s with acc := t.acc, accLen := t.accLen, accFmt := t.accFmt, accValid := t.accValid } := by
  unfold State.SameExceptAccumulator at h
  rw [← h]

theorem State.SameExceptSamples.eq_with_acc {s t : State} (h : s.SameExceptSamples t) : t = { s with acc := t.acc } := by
  unfold State.SameExceptSamples at h
  rw [← h]

theorem State.SameExceptSamples.sameExceptAccumulator {s t : State} (h : s.SameExceptSamples t) :
    s.SameExceptAccumulator t := by
  rw [h.eq_with_acc]

/-- The effect of a command that writes ACC touches the accumulator only. -/
theorem effectOf_writesAcc_frame {i : Instr} (writes : WritesAcc i) (s : State) :
    s.SameExceptAccumulator (effectOf i s) := by
  rcases writes with ⟨f, addr, len, rfl⟩ | ⟨f, addr, len, rfl⟩ | ⟨addr, len, rfl⟩ | ⟨k, rfl⟩
  · exact (effectOf_ldacc_loaded f addr len s).rest
  · exact (effectOf_ldaccu_loaded f addr len s).rest
  · exact (s.fillAcc_sameExceptSamples _ _).sameExceptAccumulator
  · exact (s.fillAcc_sameExceptSamples _ _).sameExceptAccumulator

/-- Settles O42: a discarded command changes nothing, fault entry the fault record alone, an accepted one the accumulator
alone, and ADDACC and DIVACC of the accumulator the samples alone. -/
theorem accumulatorWriteFrame : Obligations.AccumulatorWriteFrame := by
  intro f addr len k i s t which ran
  rcases exec_cases ran with ⟨_, rfl⟩ | ⟨running, c, _, rfl⟩ | ⟨_, _, rfl⟩
  · exact ⟨fun _ => rfl, fun _ => ⟨rfl, rfl, rfl⟩, rfl, fun _ => ⟨rfl, rfl⟩⟩
  · exact ⟨fun _ => rfl, fun _ => ⟨rfl, rfl, rfl⟩, rfl, fun same => absurd same (State.takeFault_fault_ne running c _)⟩
  · have writes : WritesAcc i := by rcases which with rfl | rfl | rfl | rfl <;> simp [WritesAcc]
    have session : (i = .addacc addr len ∨ i = .divacc k) → s.SameExceptSamples (effectOf i s) := by
      rintro (rfl | rfl) <;> exact s.fillAcc_sameExceptSamples _ _
    refine ⟨?_, fun arithmetic => ?_, ?_⟩
    · rw [(effectOf_writesAcc_frame writes s).eq_with]
      exact fun _ => rfl
    · rw [(session arithmetic).eq_with_acc]
      exact ⟨rfl, rfl, rfl⟩
    · rw [(effectOf_writesAcc_frame writes s).eq_with]
      exact ⟨rfl, fun _ => ⟨rfl, rfl⟩⟩

/-- Settles O43: a discarded STACC changes nothing, fault entry the fault record alone, an accepted one its bytes and the
session alone. -/
theorem staccFrame : Obligations.StaccFrame := by
  intro addr s t ran
  rcases exec_cases ran with ⟨_, rfl⟩ | ⟨running, c, _, rfl⟩ | ⟨_, _, rfl⟩
  · exact ⟨fun _ _ => rfl, fun _ => rfl, rfl, fun _ => ⟨rfl, rfl⟩⟩
  · exact ⟨fun _ _ => rfl, fun _ => rfl, rfl, fun same => absurd same (State.takeFault_fault_ne running c _)⟩
  · refine ⟨(effectOf_stacc_fb addr s).2, ?_⟩
    rw [effectOf, (s.storeAcc_sameExceptFb addr.toNat s.accLen.toNat).eq_with_fb]
    exact ⟨fun _ => rfl, rfl, fun _ => ⟨rfl, rfl⟩⟩

/-! ## LDACCU against UNPACK and LDACC -/

/-- LDACCU's sample is the lane that UNPACK would leave: converted in the whole groups, as it stands in the tail (R115). -/
theorem ldaccuSample_eq_unpacked_lane (f : Format) (addr len : Word) (i : Nat) (s : State) :
    ldaccuSample f addr.toNat len.toNat i s = (effectOf (.unpack f addr len) s).lane (addr.toNat + 2 * i) := by
  by_cases converted : i < s.wholeLanes len
  · exact (if_pos converted).trans (effectOf_transform_lane .unpack f converted).symm
  · have whole : 2 * s.wholeLanes len = s.wholeBytes len := two_mul_convertedLanes s.cfg len.toNat
    have outside {a : Nat} := effectOf_transform_outside .unpack f (addr := addr) (len := len) (s := s) (a := a)
    refine (if_neg converted).trans (State.lane_congr ?_ ?_).symm
    · exact outside (.inr (by omega))
    · exact outside (.inr (by omega))

/-- Two loads of the same values, from states with the same samples, leave the same accumulator. -/
theorem Loaded.same_accumulator {f : Format} {n : Nat} {values values' : Nat → Sample} {s s' t t' : State}
    (h : Loaded f n values s t) (h' : Loaded f n values' s' t') (sameValues : ∀ i, values i = values' i)
    (sameSamples : ∀ i, s.accSample i = s'.accSample i) :
    (∀ i, t.accSample i = t'.accSample i) ∧ t.accLen = t'.accLen ∧ t.accFmt = t'.accFmt ∧ t.accValid = t'.accValid :=
  ⟨fun i => by rw [h.samples, h'.samples, sameValues, sameSamples],
    BitVec.eq_of_toNat_eq (h.length.trans h'.length.symm), h.tag.trans h'.tag.symm, h.opened.trans h'.opened.symm⟩

/-- Settles O44: both ways load the lanes that UNPACK leaves, and UNPACK keeps the samples and the checks of LDACC. -/
theorem ldaccuIsUnpackThenLdacc : Obligations.LdaccuIsUnpackThenLdacc := by
  intro f addr len s t p q running evenAddr evenLen inRange fits ranLdaccu ranUnpack ranLdacc
  obtain ⟨bytes, -⟩ := accumulatorWriteFrame f addr len 0 _ s t (.inr (.inl rfl)) ranLdaccu
  cases ranUnpack.symm.trans (exec_transform .unpack f running inRange)
  have unpacked : s.SameExceptFb (effectOf (.unpack f addr len) s) := effectOf_transform_sameExceptFb .unpack f addr len s
  obtain ⟨cfg, acc, -, -, -, fault, -, -, -, -, resets⟩ := unpacked.fields
  cases ranLdaccu.symm.trans (exec_ldaccu running evenAddr evenLen inRange fits f)
  cases ranLdacc.symm.trans (exec_ldacc (fault.trans running) evenAddr evenLen (cfg ▸ inRange) (cfg ▸ fits) f)
  obtain ⟨samples, length, tag, opened⟩ := (effectOf_ldaccu_loaded f addr len s).same_accumulator
    (effectOf_ldacc_loaded f addr len _) (fun i => ldaccuSample_eq_unpacked_lane f addr len i s)
    (State.accSample_congr acc.symm resets.symm)
  exact ⟨samples, length, tag, opened, bytes⟩

/-! ## The format tag -/

/-- `s` under another `ACC_FMT`. -/
def State.withTag (s : State) (x : BitVec 4) : State := { s with accFmt := x }

/-- An operation that neither reads nor writes the tag. -/
def IgnoresTag (op : State → State) : Prop := ∀ s x, op (s.withTag x) = (op s).withTag x

theorem IgnoresTag.forUpto {body : Nat → State → State} (n : Nat) (each : ∀ i, IgnoresTag (body i)) :
    IgnoresTag (forUpto n body) := by
  intro s x
  induction n with
  | zero => rfl
  | succ n ih => rw [forUpto_succ, forUpto_succ, ih, each]

theorem State.memRead_withTag (s : State) (x : BitVec 4) (a n : Nat) : (s.withTag x).memRead a n = s.memRead a n :=
  State.memRead_congr fun _ _ => rfl

theorem State.lane_withTag (s : State) (x : BitVec 4) (a : Nat) : (s.withTag x).lane a = s.lane a :=
  State.lane_congr rfl rfl

theorem ignoresTag_memWrite (a n v : Nat) : IgnoresTag (fun s => s.memWrite a n v) :=
  .forUpto n fun _ _ _ => rfl

theorem ignoresTag_mapLanes (lane : Sample → Sample) (addr len : Nat) :
    IgnoresTag (fun s => s.mapLanes lane addr len) := by
  refine fun s x => IgnoresTag.forUpto _ (fun g => IgnoresTag.forUpto _ fun i t y => ?_) s x
  simp only [State.mapLane, State.lane_withTag]
  exact ignoresTag_memWrite _ _ _ t y

theorem ignoresTag_maskGroups (mask addr len : Nat) : IgnoresTag (fun s => s.maskGroups mask addr len) := by
  refine fun s x => IgnoresTag.forUpto _ (fun g t y => ?_) s x
  rw [State.memRead_withTag]
  exact ignoresTag_memWrite _ _ _ t y

theorem ignoresTag_storeAcc (addr n : Nat) : IgnoresTag (fun s => s.storeAcc addr n) :=
  .forUpto n fun i t y => ignoresTag_memWrite (addr + 2 * i) 2 (t.accSample i).toNat t y

theorem ignoresTag_fillAcc (n : Nat) {value : Nat → State → Sample}
    (ignores : ∀ i s x, value i (s.withTag x) = value i s) : IgnoresTag (fun s => s.fillAcc n value) := by
  refine .forUpto n fun i t y => ?_
  rw [ignores]
  rfl

/-- The effect of a command under another tag: the loads and STACC set the tag themselves, the others keep it. -/
theorem effectOf_withTag (i : Instr) (s : State) (x : BitVec 4) :
    ∃ y, effectOf i (s.withTag x) = (effectOf i s).withTag y := by
  cases i with
  | unpack f addr len => exact ⟨x, ignoresTag_mapLanes _ _ _ s x⟩
  | mask f addr len => exact ⟨x, ignoresTag_maskGroups _ _ _ s x⟩
  | shl f addr len => exact ⟨x, ignoresTag_mapLanes _ _ _ s x⟩
  | pad f addr len => exact ⟨x, ignoresTag_mapLanes _ _ _ s x⟩
  | ldacc f addr len =>
    have filled := ignoresTag_fillAcc (len.toNat / 2) (value := fun i u => u.lane (addr.toNat + 2 * i))
      (fun i s x => s.lane_withTag x (addr.toNat + 2 * i)) s x
    exact ⟨f.code, congrArg (fun u => u.openSession (len.toNat / 2) f) filled⟩
  | ldaccu f addr len =>
    have filled := ignoresTag_fillAcc (len.toNat / 2) (value := ldaccuSample f addr.toNat len.toNat)
      (fun i s x => by simp only [ldaccuSample, State.lane_withTag]; rfl) s x
    exact ⟨f.code, congrArg (fun u => u.openSession (len.toNat / 2) f) filled⟩
  | addacc addr len =>
    exact ⟨x, ignoresTag_fillAcc _ (fun i s x => by rw [State.lane_withTag]; rfl) s x⟩
  | divacc k => exact ⟨x, ignoresTag_fillAcc _ (fun _ _ _ => rfl) s x⟩
  | stacc addr =>
    have closed := congrArg State.closeSession (ignoresTag_storeAcc addr.toNat s.accLen.toNat s x)
    exact ⟨0, closed⟩

/-- Settles O45: the checks do not read the tag, and each effect does the same under another one. -/
theorem formatTagIsNeverRead : Obligations.FormatTagIsNeverRead := by
  intro i s t x ran
  have checks : checksOf i (s.withTag x) = checksOf i s := by cases i <;> rfl
  have ran' := exec_eq_issue i (s.withTag x)
  rw [checks] at ran'
  rcases exec_cases ran with ⟨halted, rfl⟩ | ⟨running, c, failed, rfl⟩ | ⟨running, passed, rfl⟩
  · exact ⟨_, ran'.trans (issue_halted (s := t.withTag x) halted _ _ _), rfl⟩
  · exact ⟨_, ran'.trans (issue_faults (s := s.withTag x) running failed _ _), rfl⟩
  · obtain ⟨y, same⟩ := effectOf_withTag i s x
    refine ⟨_, ran'.trans (issue_runs (s := s.withTag x) running passed _ _), ?_⟩
    rw [same]
    rfl

end Sys2Proof.Machine
end

section
/-! PROOFS. Averaging (spec/45_accumulator.md R126): a run of LDACC, ADDACCs, DIVACC and STACC, command by command. The sum
after `m` frames is `m * c` in every sample, and no sum wraps. -/

namespace Sys2Proof.Machine

/-! ## Runs of submitted commands -/

/-- `s` with other moves pending. -/
def State.withMoves (s : State) (moves : List HostMove) : State := { s with moves := moves }

/-- A run whose first pending move is a command's descriptor runs the command, then the rest (R42, R50). -/
theorem run_submit {P : State → Prop} {n : Nat} {i : Instr} {rest : List HostMove} {s : State}
    (moves : s.moves = .submit (encode i) :: rest) (ran : ∃ t, exec i (s.withMoves rest) = .next t ∧ P t) :
    ∃ t, Host.Core.run Sys2Proof.core (n + 1) s = Host.Core.run Sys2Proof.core n t ∧
      t.moves = rest ∧ t.cfg = s.cfg ∧ P t := by
  obtain ⟨t, ran, holds⟩ := ran
  have stepped : step s = .next t :=
    (stepRunsTheDecodedCommand s (encode i) rest i moves (decodeInvertsEncode i)).trans ran
  have left : t.moves = s.moves.tail := stepTakesTheFirstMove.1 s t stepped
  have continues : Host.Core.run Sys2Proof.core (n + 1) s = Host.Core.run Sys2Proof.core n t := by
    have coreStep : Sys2Proof.core.step s = .next t := stepped
    simp only [Host.Core.run, coreStep]
  exact ⟨t, continues, by rw [left, moves, List.tail_cons], parametersNeverChange s t stepped, holds⟩

/-! ## The sum of equal frames -/

/-- An open session holds, in each of its samples, the sum of `m` lanes `c`, and the frame they came from is still there. -/
structure SumOfFrames (addr len : Word) (c : Sample) (m : Nat) (s : State) : Prop where
  running : s.NoFault
  opened  : s.accValid = true
  length  : s.accLen.toNat = len.toNat / 2
  frame   : ∀ i, i < len.toNat / 2 → s.lane (addr.toNat + 2 * i) = c
  sums    : ∀ i, i < len.toNat / 2 → (s.accSample i).toNat = m * c.toNat

theorem SumOfFrames.withMoves {addr len : Word} {c : Sample} {m : Nat} {s : State} (h : SumOfFrames addr len c m s)
    (rest : List HostMove) : SumOfFrames addr len c m (s.withMoves rest) :=
  ⟨h.running, h.opened, h.length, fun i hi => (State.lane_congr rfl rfl).trans (h.frame i hi), h.sums⟩

/-- LDACC starts the sum with one frame (R113). -/
theorem exec_ldacc_sum {f : Format} {addr len : Word} {c : Sample} {s : State} (running : s.NoFault)
    (evenAddr : addr.toNat % 2 = 0) (evenLen : len.toNat % 2 = 0) (inRange : addr.toNat + len.toNat ≤ s.cfg.fbBytes)
    (fits : len.toNat / 2 ≤ s.cfg.accWords) (frame : ∀ i, i < len.toNat / 2 → s.lane (addr.toNat + 2 * i) = c) :
    ∃ t, exec (.ldacc f addr len) s = .next t ∧ SumOfFrames addr len c 1 t := by
  obtain ⟨t, ran, samples, length, -, opened, same⟩ :=
    ldaccLoadsTheLanes f addr len s running evenAddr evenLen inRange fits
  have other := same.eq_with
  refine ⟨t, ran, ?_, opened, length, fun i hi => ?_, fun i hi => ?_⟩
  · rw [other]
    exact running
  · rw [other]
    exact (State.lane_congr rfl rfl).trans (frame i hi)
  · rw [samples, if_pos hi, frame i hi, Nat.one_mul]

/-- ADDACC adds one more frame, as long as the sum does not wrap (R117). -/
theorem SumOfFrames.exec_addacc {addr len : Word} {c : Sample} {m : Nat} {s : State} (h : SumOfFrames addr len c m s)
    (evenAddr : addr.toNat % 2 = 0) (evenLen : len.toNat % 2 = 0) (inRange : addr.toNat + len.toNat ≤ s.cfg.fbBytes)
    (noWrap : (m + 1) * c.toNat < 2 ^ 16) :
    ∃ t, exec (.addacc addr len) s = .next t ∧ SumOfFrames addr len c (m + 1) t := by
  obtain ⟨t, ran, samples, same⟩ :=
    addaccAddsEverySample addr len s h.running h.opened evenAddr evenLen inRange h.length.symm
  obtain ⟨-, -, length, -, opened, fault, -⟩ := same.fields
  refine ⟨t, ran, fault.trans h.running, opened.trans h.opened, length ▸ h.length,
    fun i hi => (lane_own _ same).trans (h.frame i hi), fun i hi => ?_⟩
  rw [samples, if_pos (h.length ▸ hi), h.sums i hi, h.frame i hi, ← Nat.succ_mul, Nat.mod_eq_of_lt noWrap]

/-- `n` times ADDACC, by induction on `n`. -/
theorem SumOfFrames.run_addaccs {addr len : Word} {c : Sample} {m n k : Nat} {rest : List HostMove} {s : State}
    (h : SumOfFrames addr len c m s) (evenAddr : addr.toNat % 2 = 0) (evenLen : len.toNat % 2 = 0)
    (inRange : addr.toNat + len.toNat ≤ s.cfg.fbBytes) (noWrap : (m + n) * c.toNat < 2 ^ 16)
    (moves : s.moves = List.replicate n (.submit (encode (.addacc addr len))) ++ rest) :
    ∃ t, Host.Core.run Sys2Proof.core (n + k) s = Host.Core.run Sys2Proof.core k t ∧
      SumOfFrames addr len c (m + n) t ∧ t.moves = rest ∧ t.cfg = s.cfg := by
  induction n generalizing m s with
  | zero => exact ⟨s, by rw [Nat.zero_add], h, moves, rfl⟩
  | succ n ih =>
    have noWrapYet : (m + 1) * c.toNat < 2 ^ 16 := (Nat.mul_le_mul_right _ (by omega)).trans_lt noWrap
    rw [List.replicate_succ, List.cons_append] at moves
    obtain ⟨u, run, left, cfg, added⟩ :=
      run_submit (n := n + k) moves ((h.withMoves _).exec_addacc evenAddr evenLen inRange noWrapYet)
    have total : m + 1 + n = m + (n + 1) := by omega
    obtain ⟨t, runs, sum, leftAll, cfgAll⟩ := ih added (cfg ▸ inRange) (total ▸ noWrap) left
    refine ⟨t, ?_, total ▸ sum, leftAll, cfgAll.trans cfg⟩
    rw [Nat.add_right_comm, run, runs]

/-- DIVACC by the number of frames leaves the one value (R120): the quotient of `k * c` by `k` is `c`. -/
theorem SumOfFrames.exec_divacc {addr len : Word} {c k : Sample} {s : State} (h : SumOfFrames addr len c k.toNat s)
    (positive : 1 ≤ k.toNat) : ∃ t, exec (.divacc k) s = .next t ∧ SumOfFrames addr len c 1 t := by
  have nonzero : k ≠ 0 := fun zero => by simp [zero] at positive
  obtain ⟨t, ran, quotients, -, same⟩ := divaccDividesEverySample k s h.running h.opened nonzero
  obtain ⟨-, -, length, -, opened, fault, -⟩ := same.fields
  refine ⟨t, ran, fault.trans h.running, opened.trans h.opened, length ▸ h.length,
    fun i hi => (lane_own _ same).trans (h.frame i hi), fun i hi => ?_⟩
  obtain ⟨low, high⟩ := quotients i (h.length ▸ hi)
  rw [h.sums i hi, Nat.mul_comm] at low high
  have le := Nat.le_of_mul_le_mul_left low positive
  have lt := Nat.lt_of_mul_lt_mul_right high
  omega

/-- STACC of the averaged samples writes the one value to every lane of `out` and closes the session (R123). -/
theorem SumOfFrames.exec_stacc {addr len out : Word} {c : Sample} {s : State} (h : SumOfFrames addr len c 1 s)
    (evenOut : out.toNat % 2 = 0) (evenLen : len.toNat % 2 = 0) (inRange : out.toNat + len.toNat ≤ s.cfg.fbBytes) :
    ∃ t, exec (.stacc out) s = .next t ∧ t.fault = false ∧ t.accValid = false ∧
      ∀ i, i < len.toNat / 2 → t.lane (out.toNat + 2 * i) = c := by
  have length := h.length
  obtain ⟨t, ran, lanes, -, closed, -, -, same⟩ := staccStoresAndCloses out s h.running h.opened evenOut (by omega)
  have fault : t.fault = s.fault := by rw [← same]
  refine ⟨t, ran, fault.trans h.running, closed, fun i hi => ?_⟩
  apply BitVec.eq_of_toNat_eq
  rw [lanes i (by omega), h.sums i hi, Nat.one_mul]

/-- Settles O49: LDACC makes the sum of one frame, each ADDACC adds one, DIVACC gives the value back, STACC stores it. -/
theorem averageOfEqualFrames : Obligations.AverageOfEqualFrames := by
  intro f addr len out c k s running evenAddr evenLen evenOut inRange outInRange fits frame positive noWrap moves
  have frames : 1 + (k.toNat - 1) = k.toNat := by omega
  obtain ⟨s₁, run₁, moves₁, cfg₁, one⟩ := run_submit (n := k.toNat - 1 + 2) moves
    (exec_ldacc_sum (s := s.withMoves _) running evenAddr evenLen inRange fits fun i hi =>
      (State.lane_congr rfl rfl).trans (frame i hi))
  obtain ⟨s₂, run₂, sum, moves₂, cfg₂⟩ :=
    one.run_addaccs (k := 2) evenAddr evenLen (cfg₁ ▸ inRange) (by rwa [frames]) moves₁
  rw [frames] at sum
  obtain ⟨s₃, run₃, moves₃, cfg₃, quotient⟩ := run_submit (n := 1) moves₂ ((sum.withMoves _).exec_divacc positive)
  have outInRange₃ : out.toNat + len.toNat ≤ s₃.cfg.fbBytes := by rwa [cfg₃, cfg₂, cfg₁]
  obtain ⟨t, run₄, -, -, stored⟩ :=
    run_submit (n := 0) moves₃ ((quotient.withMoves _).exec_stacc evenOut evenLen outInRange₃)
  refine ⟨t, ?_, stored⟩
  rw [show k.toNat + 2 = k.toNat - 1 + 2 + 1 by omega, run₁, run₂, run₃, run₄]
  rfl

end Sys2Proof.Machine
end

section
/-! PROOFS. The fault model (spec/60_exceptions.md): the lowest code is the one entered (R131 to R133), and the halted
engine (R134, R135). R131's table is the list of checks a command makes, and that list has rising codes. -/

namespace Sys2Proof.Machine

/-! ## The checks of a command and R131's table -/

/-- Settles O9: R131's table, code by code. -/
theorem faultCodes : Obligations.FaultCodes := ⟨rfl, rfl, rfl, rfl, rfl, rfl, rfl, rfl⟩

/-- Settles O17: a command is one `issue`, and that answers a next state on each of its three paths (R141). -/
theorem everyCommandCompletes : Obligations.EveryCommandCompletes := by
  intro i s
  rw [exec_eq_issue]
  exact issue_completes _ _ _ _

/-- R131's table and the checks in the commands' meanings agree row by row; of the rows only `Range` speaks of the region
a command names. -/
theorem raises_iff_failed_check {s : State} {c : FaultCause} {i : Instr} :
    s.raises c i ↔ (c, true) ∈ checksOf i s := by
  cases c with
  | range => cases i <;> simp [State.raises, State.region, checksOf]
  | _ => cases i <;> simp [State.raises, checksOf]

/-- A command makes its checks lowest code first (R132). -/
theorem checksOf_codes_rise (i : Instr) (s : State) :
    (checksOf i s).Pairwise (fun x y => x.1.code.toNat < y.1.code.toNat) := by
  cases i <;> simp [checksOf, FaultCause.code]

/-- In a list with rising codes the first check that fails is the failing one with the lowest code (R132). -/
theorem firstFault_eq_lowest {checks : List (FaultCause × Bool)} {c : FaultCause}
    (rise : checks.Pairwise (fun x y => x.1.code.toNat < y.1.code.toNat)) (failed : (c, true) ∈ checks)
    (lowest : ∀ c', (c', true) ∈ checks → c.code.toNat ≤ c'.code.toNat) : firstFault checks = some c := by
  induction checks with
  | nil => cases failed
  | cons head rest ih =>
    obtain ⟨headCause, headFails⟩ := head
    obtain ⟨headLower, restRise⟩ := List.pairwise_cons.mp rise
    cases headFails with
    | true =>
      rcases List.mem_cons.mp failed with isHead | later
      · cases isHead
        rfl
      · exact absurd (headLower _ later) (Nat.not_lt.mpr (lowest headCause List.mem_cons_self))
    | false =>
      have later : (c, true) ∈ rest := by simpa using failed
      exact ih restRise later fun c' h => lowest c' (List.mem_cons_of_mem _ h)

/-- The cause a running command reports is the one with the lowest code of those raised (R132). -/
theorem firstFault_of_lowest_raised {s : State} {c : FaultCause} {i : Instr} (raised : s.raises c i)
    (lowest : ∀ c', s.raises c' i → c.code.toNat ≤ c'.code.toNat) : firstFault (checksOf i s) = some c :=
  firstFault_eq_lowest (checksOf_codes_rise i s) (raises_iff_failed_check.mp raised) fun c' failed =>
    lowest c' (raises_iff_failed_check.mpr failed)

/-- Settles O8: the step runs the command, whose first failing check is the lowest cause, and a legal descriptor is the
encoding of its command, so FINFO is its first word. -/
theorem lowestFaultIsEntered : Obligations.LowestFaultIsEntered := by
  intro s d rest i c running moves decoded raised lowest
  let s' : State := { s with moves := rest }
  have encoded : encode i = d := decode_eq_ok_iff.mp decoded
  calc step s = exec i s' := stepRunsTheDecodedCommand s d rest i moves decoded
    _ = issue (finfoOf i) (checksOf i s') (effectOf i) s' := exec_eq_issue i s'
    _ = .next (s'.takeFault c (finfoOf i)) :=
      issue_faults (s := s') running (firstFault_of_lowest_raised raised lowest) _ _
    _ = .next (s'.takeFault c (firstWord d)) := by rw [finfoOf, encoded]

/-! ## The halted engine -/

theorem exec_halted {s : State} (halted : s.fault = true) (i : Instr) : exec i s = .next s := by
  rw [exec_eq_issue, issue_halted halted]

/-- Legal or not, a descriptor is discarded (R134). -/
theorem submitDescriptor_halted {s : State} (halted : s.fault = true) (d : DescriptorBits) :
    submitDescriptor d s = .next s := by
  unfold submitDescriptor
  split
  · exact exec_halted halted _
  · exact issue_halted halted _ _ _

/-- Settles O10: descriptors and commands are discarded, and the host's other moves do not look at FAULT. -/
theorem haltedEngineDiscardsDescriptors : Obligations.HaltedEngineDiscardsDescriptors := by
  intro s rest halted
  obtain ⟨writes, reads⟩ := hostAccessesFb
  refine ⟨fun d moves => ?_, exec_halted halted, fun n moves => step_of_moves moves,
    fun a moves => (reads s rest a moves).1, fun a b moves => (writes s rest a b moves).1⟩
  rw [step_of_moves moves]
  exact submitDescriptor_halted (s := { s with moves := rest }) halted d

/-- No host move but the reset touches the record of the first fault (R135). -/
theorem hostMove_halted_keeps_record {m : HostMove} {s t : State} (halted : s.fault = true) (noReset : m ≠ .reset)
    (moved : hostMove m s = .next t) : t.fault = true ∧ t.cause = s.cause ∧ t.finfo = s.finfo := by
  cases m with
  | submit d =>
    cases moved.symm.trans (submitDescriptor_halted halted d)
    exact ⟨halted, rfl, rfl⟩
  | readReg | writeReg | readFb | writeFb =>
    cases hostMove_next moved
    exact ⟨halted, rfl, rfl⟩
  | reset => exact absurd rfl noReset

/-- Settles O11: a halted step is idle or takes a move, and of all moves only the reset clears FAULT. -/
theorem onlyResetLeavesTheHaltedState : Obligations.OnlyResetLeavesTheHaltedState := by
  refine ⟨fun s t halted ran noReset => ?_, fun s rest moves => ⟨_, step_of_moves moves, rfl⟩⟩
  cases moves : s.moves with
  | nil =>
    cases ran.symm.trans (step_of_no_moves moves)
    exact ⟨halted, rfl, rfl⟩
  | cons m rest =>
    rw [step_of_moves moves] at ran
    exact hostMove_halted_keeps_record (s := { s with moves := rest }) halted (by simpa [moves] using noReset) ran

end Sys2Proof.Machine
end

section
/-! PROOFS. Reset (spec/70_reset_and_hazards.md R150, R165): the control state is 0 again, so `STATUS` reads 0, and neither
memory lists anything. -/

namespace Sys2Proof.Machine

theorem State.not_written_of_fb_nil {s : State} (fb : s.fb = []) (a : Nat) : ¬ s.Written a := by
  simp [State.Written, fb]

theorem State.not_sampleWritten_of_acc_nil {s : State} (acc : s.acc = []) (i : Nat) : ¬ s.SampleWritten i := by
  simp [State.SampleWritten, acc]

/-- `STATUS` is a function of three state fields (R17), and reads 0 when all of them are clear. -/
theorem State.status_eq_zero {s : State} (fault : s.fault = false) (valid : s.accValid = false) (fmt : s.accFmt = 0) :
    s.status = 0 := by
  rw [State.status, fault, valid, fmt]
  rfl

/-- Settles O15: the step is `applyReset`, which looks at neither FAULT nor the memories. -/
theorem resetLeavesTheTablesValues : Obligations.ResetLeavesTheTablesValues := by
  intro s rest moves
  let t : State := ({ s with moves := rest }).applyReset
  have ran : step s = .next t := step_of_moves moves
  have status : t.status = 0 := State.status_eq_zero rfl rfl rfl
  exact ⟨t, ran, status, rfl, rfl, rfl, rfl, rfl, rfl, rfl, State.not_written_of_fb_nil rfl,
    State.not_sampleWritten_of_acc_nil rfl, rfl⟩

/-- Settles O16: BUSY is 0 in every state, and power-on and a later reset leave the same control state and an empty FB. -/
theorem launchPremisesHoldAfterReset : Obligations.LaunchPremisesHoldAfterReset := by
  intro c s afterReset
  obtain ⟨idle, -⟩ := statusFields s
  obtain rfl | ⟨u, rfl⟩ := afterReset
  · exact ⟨idle, rfl, rfl, rfl, rfl, rfl, rfl, State.not_written_of_fb_nil (State.ofConfig_fb c)⟩
  · exact ⟨idle, rfl, rfl, rfl, rfl, rfl, rfl, State.not_written_of_fb_nil u.applyReset_fb⟩

end Sys2Proof.Machine
end
